-- ==== Sys2Proof/Word.lean ====
section
/-! DEFINITION. The two sizes of data the machine moves (00_scope.md R5, R10): the 16-bit word, which is every
register, memory cell and address, and the 8-bit byte, which is one character of the input or output device.
Arithmetic on words is that of `BitVec 16`: sums are modulo 65,536. -/

namespace Sys2Proof

/-- A 16-bit word: a register value, a memory cell, an address (R10). -/
abbrev Word := BitVec 16

/-- A byte, one character of the input or the output device (R10, 10_state.md R31, R32). -/
abbrev Byte := BitVec 8

end Sys2Proof
end

