-- ==== Sys2Proof/Syntax.lean ====
section
/-! DEFINITION. The instructions as syntax: one constructor of `Instr` per row of spec/opcode_table.json, with the
fields of 30_encoding.md R81 that the row uses. Bits that no field uses are not part of an instruction (R88). -/

namespace Sys2Proof

/-- The number of a general register, as a register field selects it (10_state.md R20, 30_encoding.md R86). -/
inductive Reg where
  | r0 | r1 | r2 | r3 | r4 | r5 | r6 | r7
deriving DecidableEq, Repr

/-- The instructions. A `BitVec 3` operand is BR's mask n z p (n the high bit), a `BitVec 5` is imm5, a `BitVec 6`
offset6, a `BitVec 9` PCoffset9, a `BitVec 11` PCoffset11 and a `BitVec 8` trapvect8 (30_encoding.md R81). -/
inductive Instr where
  /-- ADD, register form: DR, SR1, SR2 (R120). -/
  | addReg (d a b : Reg)
  /-- ADD, immediate form: DR, SR1, imm5 (R121). -/
  | addImm (d a : Reg) (i : BitVec 5)
  /-- AND, register form: DR, SR1, SR2 (R122). -/
  | andReg (d a b : Reg)
  /-- AND, immediate form: DR, SR1, imm5 (R123). -/
  | andImm (d a : Reg) (i : BitVec 5)
  /-- NOT: DR, SR1 (R124). -/
  | not (d a : Reg)
  /-- BR: mask n z p, PCoffset9 (R130). -/
  | br (m : BitVec 3) (o : BitVec 9)
  /-- JMP, and RET when the register is r7: BaseR (R131). -/
  | jmp (b : Reg)
  /-- JSR: PCoffset11 (R132). -/
  | jsr (o : BitVec 11)
  /-- JSRR: BaseR (R133). -/
  | jsrr (b : Reg)
  /-- LD: DR, PCoffset9 (R140). -/
  | ld (d : Reg) (o : BitVec 9)
  /-- LDI: DR, PCoffset9 (R141). -/
  | ldi (d : Reg) (o : BitVec 9)
  /-- LDR: DR, BaseR, offset6 (R142). -/
  | ldr (d b : Reg) (o : BitVec 6)
  /-- LEA: DR, PCoffset9 (R143). -/
  | lea (d : Reg) (o : BitVec 9)
  /-- ST: SR, PCoffset9 (R144). -/
  | st (r : Reg) (o : BitVec 9)
  /-- STI: SR, PCoffset9 (R145). -/
  | sti (r : Reg) (o : BitVec 9)
  /-- STR: SR, BaseR, offset6 (R146). -/
  | str (r b : Reg) (o : BitVec 6)
  /-- TRAP with a code that names no routine, the generic row (R150, R159). -/
  | trap (v : BitVec 8)
  /-- TRAP x20, GETC (R152). -/
  | trapGetc
  /-- TRAP x21, OUT (R153). -/
  | trapOut
  /-- TRAP x22, PUTS (R154). -/
  | trapPuts
  /-- TRAP x23, IN (R155). -/
  | trapIn
  /-- TRAP x24, PUTSP (R156). -/
  | trapPutsp
  /-- TRAP x25, HALT (R158). -/
  | trapHalt
  /-- RTI, a reserved opcode (R170). -/
  | rti
  /-- RES, a reserved opcode (R171). -/
  | res
deriving DecidableEq, Repr

end Sys2Proof
end

