-- ==== Sys2Proof/WellFormed.lean ====
section
/-! DEFINITION. Which terms of `Instr` stand for an instruction word. Every field admits all its values
(30_encoding.md R81, R85, R86) but one: the six codes 0x20 to 0x25 of the row TRAP belong to the rows of the
routines, "its sub-cases", which a decoder "tries first" (R92), so the generic constructor does not carry them. -/

namespace Sys2Proof

/-- The trap codes that select a routine: 0x20 GETC to 0x25 HALT (00_scope.md R5, 44_trap.md R150). -/
def isRoutineCode (v : BitVec 8) : Bool :=
  decide (0x20 ≤ v.toNat) && decide (v.toNat ≤ 0x25)

/-- An instruction that some word encodes. The only check is the one on the code of the generic TRAP row. -/
def Instr.wf : Instr → Bool
  | .trap v => !isRoutineCode v
  | .addReg _ _ _ | .addImm _ _ _ | .andReg _ _ _ | .andImm _ _ _ | .not _ _ | .br _ _ | .jmp _ | .jsr _ | .jsrr _
  | .ld _ _ | .ldi _ _ | .ldr _ _ _ | .lea _ _ | .st _ _ | .sti _ _ | .str _ _ _
  | .trapGetc | .trapOut | .trapPuts | .trapIn | .trapPutsp | .trapHalt | .rti | .res => true

end Sys2Proof
end

