-- ==== Sys2Proof/Decode.lean ====
section
/-! DEFINITION. The decoder of 30_encoding.md R87, the encoder written from the formats of R82 and the opcode map of
R83, and each row's match and mask as spec/opcode_table.json gives them (R92). The decoder is total on all 65,536
words (R87), so it refuses none; an instruction is one cell (R80), so there is no byte stream to decode. The opcode
numbers and field positions are the spec's decisions D1 and D2 (log entry 11). -/

namespace Sys2Proof

/-- The register a 3-bit field selects (R86). -/
def Reg.ofBits (b : BitVec 3) : Reg :=
  if b = 0#3 then .r0 else if b = 1#3 then .r1 else if b = 2#3 then .r2 else if b = 3#3 then .r3
  else if b = 4#3 then .r4 else if b = 5#3 then .r5 else if b = 6#3 then .r6 else .r7

/-- The 3-bit field that selects a register (R86). -/
def Reg.bits : Reg → BitVec 3
  | .r0 => 0#3 | .r1 => 1#3 | .r2 => 2#3 | .r3 => 3#3 | .r4 => 4#3 | .r5 => 5#3 | .r6 => 6#3 | .r7 => 7#3

/-- Bits 15:12, the opcode (R81). -/
def fieldOpcode (w : Word) : BitVec 4 := w.extractLsb' 12 4
/-- Bits 11:9, DR or SR (R81). -/
def fieldDR (w : Word) : Reg := Reg.ofBits (w.extractLsb' 9 3)
/-- Bits 8:6, SR1 or BaseR (R81). -/
def fieldBase (w : Word) : Reg := Reg.ofBits (w.extractLsb' 6 3)
/-- Bits 2:0, SR2 (R81). -/
def fieldSR2 (w : Word) : Reg := Reg.ofBits (w.extractLsb' 0 3)
/-- Bits 11:9, the mask n z p of BR (R81). -/
def fieldNzp (w : Word) : BitVec 3 := w.extractLsb' 9 3
/-- Bits 4:0 (R81). -/
def fieldImm5 (w : Word) : BitVec 5 := w.extractLsb' 0 5
/-- Bits 5:0 (R81). -/
def fieldOffset6 (w : Word) : BitVec 6 := w.extractLsb' 0 6
/-- Bits 8:0 (R81). -/
def fieldPCoffset9 (w : Word) : BitVec 9 := w.extractLsb' 0 9
/-- Bits 10:0 (R81). -/
def fieldPCoffset11 (w : Word) : BitVec 11 := w.extractLsb' 0 11
/-- Bits 7:0 (R81). -/
def fieldTrapvect8 (w : Word) : BitVec 8 := w.extractLsb' 0 8
/-- Bit 5, the mode of ADD and AND: 1 selects the immediate (R81, R86). -/
def modeImmediate (w : Word) : Bool := w.getLsbD 5
/-- Bit 11, the mode of opcode 0100: 1 selects JSR (R81, R86). -/
def modeJsr (w : Word) : Bool := w.getLsbD 11

/-- The TRAP row and its sub-cases: the six routine codes are tried first (R87, R92). -/
def decodeTrap (v : BitVec 8) : Instr :=
  if v = 0x20#8 then .trapGetc
  else if v = 0x21#8 then .trapOut
  else if v = 0x22#8 then .trapPuts
  else if v = 0x23#8 then .trapIn
  else if v = 0x24#8 then .trapPutsp
  else if v = 0x25#8 then .trapHalt
  else .trap v

/-- The decoder (R87): bits 15:12 first, then one more bit or field for three of the opcodes. -/
def decode (w : Word) : Instr :=
  if fieldOpcode w = 0x0#4 then .br (fieldNzp w) (fieldPCoffset9 w)
  else if fieldOpcode w = 0x1#4 then
    if modeImmediate w then .addImm (fieldDR w) (fieldBase w) (fieldImm5 w)
    else .addReg (fieldDR w) (fieldBase w) (fieldSR2 w)
  else if fieldOpcode w = 0x2#4 then .ld (fieldDR w) (fieldPCoffset9 w)
  else if fieldOpcode w = 0x3#4 then .st (fieldDR w) (fieldPCoffset9 w)
  else if fieldOpcode w = 0x4#4 then
    if modeJsr w then .jsr (fieldPCoffset11 w) else .jsrr (fieldBase w)
  else if fieldOpcode w = 0x5#4 then
    if modeImmediate w then .andImm (fieldDR w) (fieldBase w) (fieldImm5 w)
    else .andReg (fieldDR w) (fieldBase w) (fieldSR2 w)
  else if fieldOpcode w = 0x6#4 then .ldr (fieldDR w) (fieldBase w) (fieldOffset6 w)
  else if fieldOpcode w = 0x7#4 then .str (fieldDR w) (fieldBase w) (fieldOffset6 w)
  else if fieldOpcode w = 0x8#4 then .rti
  else if fieldOpcode w = 0x9#4 then .not (fieldDR w) (fieldBase w)
  else if fieldOpcode w = 0xA#4 then .ldi (fieldDR w) (fieldPCoffset9 w)
  else if fieldOpcode w = 0xB#4 then .sti (fieldDR w) (fieldPCoffset9 w)
  else if fieldOpcode w = 0xC#4 then .jmp (fieldBase w)
  else if fieldOpcode w = 0xD#4 then .res
  else if fieldOpcode w = 0xE#4 then .lea (fieldDR w) (fieldPCoffset9 w)
  else decodeTrap (fieldTrapvect8 w)

/-- A field put in a word with its lowest bit at bit `lsb`, all other bits 0 (R81). -/
def place {n : Nat} (v : BitVec n) (lsb : Nat) : Word := v.setWidth 16 <<< lsb

/-- The word of an instruction, from the formats of R82 and the opcode map of R83, each field placed at its bits
(R81). Ignored bits are written as the LC-3 convention has them, 0 everywhere and 1 in NOT's six low bits (R88; log
entry 13). -/
def encode : Instr → Word
  | .addReg d a b => place 0x1#4 12 ||| place d.bits 9 ||| place a.bits 6 ||| place 0b0#1 5 ||| place b.bits 0
  | .addImm d a i => place 0x1#4 12 ||| place d.bits 9 ||| place a.bits 6 ||| place 0b1#1 5 ||| place i 0
  | .andReg d a b => place 0x5#4 12 ||| place d.bits 9 ||| place a.bits 6 ||| place 0b0#1 5 ||| place b.bits 0
  | .andImm d a i => place 0x5#4 12 ||| place d.bits 9 ||| place a.bits 6 ||| place 0b1#1 5 ||| place i 0
  | .not d a => place 0x9#4 12 ||| place d.bits 9 ||| place a.bits 6 ||| place 0b111111#6 0
  | .br m o => place 0x0#4 12 ||| place m 9 ||| place o 0
  | .jmp b => place 0xC#4 12 ||| place b.bits 6
  | .jsr o => place 0x4#4 12 ||| place 0b1#1 11 ||| place o 0
  | .jsrr b => place 0x4#4 12 ||| place 0b0#1 11 ||| place b.bits 6
  | .ld d o => place 0x2#4 12 ||| place d.bits 9 ||| place o 0
  | .ldi d o => place 0xA#4 12 ||| place d.bits 9 ||| place o 0
  | .ldr d b o => place 0x6#4 12 ||| place d.bits 9 ||| place b.bits 6 ||| place o 0
  | .lea d o => place 0xE#4 12 ||| place d.bits 9 ||| place o 0
  | .st r o => place 0x3#4 12 ||| place r.bits 9 ||| place o 0
  | .sti r o => place 0xB#4 12 ||| place r.bits 9 ||| place o 0
  | .str r b o => place 0x7#4 12 ||| place r.bits 9 ||| place b.bits 6 ||| place o 0
  | .trap v => place 0xF#4 12 ||| place v 0
  | .trapGetc => place 0xF#4 12 ||| place 0x20#8 0
  | .trapOut => place 0xF#4 12 ||| place 0x21#8 0
  | .trapPuts => place 0xF#4 12 ||| place 0x22#8 0
  | .trapIn => place 0xF#4 12 ||| place 0x23#8 0
  | .trapPutsp => place 0xF#4 12 ||| place 0x24#8 0
  | .trapHalt => place 0xF#4 12 ||| place 0x25#8 0
  | .rti => place 0x8#4 12
  | .res => place 0xD#4 12

/-- The "match" of the instruction's row in spec/opcode_table.json (R92). -/
def Instr.rowMatch : Instr → Word
  | .addReg _ _ _ => 0x1000 | .addImm _ _ _ => 0x1020 | .andReg _ _ _ => 0x5000 | .andImm _ _ _ => 0x5020
  | .not _ _ => 0x9000 | .br _ _ => 0x0000 | .jmp _ => 0xC000 | .jsr _ => 0x4800 | .jsrr _ => 0x4000
  | .ld _ _ => 0x2000 | .ldi _ _ => 0xA000 | .ldr _ _ _ => 0x6000 | .lea _ _ => 0xE000
  | .st _ _ => 0x3000 | .sti _ _ => 0xB000 | .str _ _ _ => 0x7000
  | .trap _ => 0xF000 | .trapGetc => 0xF020 | .trapOut => 0xF021 | .trapPuts => 0xF022 | .trapIn => 0xF023
  | .trapPutsp => 0xF024 | .trapHalt => 0xF025 | .rti => 0x8000 | .res => 0xD000

/-- The "mask" of the instruction's row in spec/opcode_table.json (R92). -/
def Instr.rowMask : Instr → Word
  | .addReg _ _ _ => 0xF020 | .addImm _ _ _ => 0xF020 | .andReg _ _ _ => 0xF020 | .andImm _ _ _ => 0xF020
  | .not _ _ => 0xF000 | .br _ _ => 0xF000 | .jmp _ => 0xF000 | .jsr _ => 0xF800 | .jsrr _ => 0xF800
  | .ld _ _ => 0xF000 | .ldi _ _ => 0xF000 | .ldr _ _ _ => 0xF000 | .lea _ _ => 0xF000
  | .st _ _ => 0xF000 | .sti _ _ => 0xF000 | .str _ _ _ => 0xF000
  | .trap _ => 0xF000 | .trapGetc => 0xF0FF | .trapOut => 0xF0FF | .trapPuts => 0xF0FF | .trapIn => 0xF0FF
  | .trapPutsp => 0xF0FF | .trapHalt => 0xF0FF | .rti => 0xF000 | .res => 0xF000

/-- The bits of a word that the decoder examines for this instruction: all but the ignored bits, marked `-` in the
formats of R82 and listed in R88. -/
def Instr.usedMask : Instr → Word
  | .addReg _ _ _ => 0xFFE7 | .addImm _ _ _ => 0xFFFF | .andReg _ _ _ => 0xFFE7 | .andImm _ _ _ => 0xFFFF
  | .not _ _ => 0xFFC0 | .br _ _ => 0xFFFF | .jmp _ => 0xF1C0 | .jsr _ => 0xFFFF | .jsrr _ => 0xF9C0
  | .ld _ _ => 0xFFFF | .ldi _ _ => 0xFFFF | .ldr _ _ _ => 0xFFFF | .lea _ _ => 0xFFFF
  | .st _ _ => 0xFFFF | .sti _ _ => 0xFFFF | .str _ _ _ => 0xFFFF
  | .trap _ => 0xF0FF | .trapGetc => 0xF0FF | .trapOut => 0xF0FF | .trapPuts => 0xF0FF | .trapIn => 0xF0FF
  | .trapPutsp => 0xF0FF | .trapHalt => 0xF0FF | .rti => 0xF000 | .res => 0xF000

/-- The word whose bits, numbered as spec/opcode_table.json numbers them, are those of `w` below `nbits`, with every
bit above them 0. An instruction is one 16-bit cell (R80), so bit 0 of the table is bit 0 of the cell (R9). -/
def tableWord (nbits w : Nat) : Word := BitVec.ofNat 16 (w % 2 ^ nbits)

/-- What the decoder reads from a word of the opcode table. It refuses no word (R87). -/
def decodeTableWord (nbits w : Nat) : Option Instr := some (decode (tableWord nbits w))

end Sys2Proof
end

