-- ==== Sys2Proof/Config.lean ====
section
/-! DEFINITION. What an implementation fixes: the four open parameters of 00_scope.md R6. "The model takes each as an
argument": they stand in the record `Params`, which a state carries unchanged, so that a statement about every state
holds for every value of them. The cells of a machine whose `MEM_FILL` is "any" are no parameter and no constant: an
arbitrary function stands for them where the state after reset is made (Machine/Interfaces.lean). The defaults the spec suggests are in Machine/Defaults.lean. The spec leaves no value of
an instruction's result open, so there is no free value here. -/

namespace Sys2Proof.Config

/-- `MEM_FILL`: "16-bit word, or 'any'" (R6, D6). -/
inductive MemFill where
  /-- Every cell no image wrote holds this word after reset. -/
  | word (v : Word)
  /-- Each cell no image wrote holds a word of its own, about which nothing is known (10_state.md R34). -/
  | any
deriving DecidableEq, Repr

/-- The open parameters (R6). -/
structure Params where
  /-- `PC_START`, the value of `pc` after reset (D5). -/
  pcStart : Word
  /-- `MEM_FILL`, the reset value of a cell no image wrote (D6). -/
  memFill : MemFill
  /-- `IN_PROMPT`, the bytes the IN routine emits before it reads (D15). -/
  inPrompt : List Byte
  /-- `HALT_NOTICE`, the bytes the HALT routine emits (D16). -/
  haltNotice : List Byte
deriving DecidableEq, Repr

end Sys2Proof.Config
end

