-- ==== Sys2Proof/Machine/Defaults.lean ====
section
/-! DEFINITION. Numbers and texts the spec gives: the keyboard addresses (00_scope.md R5), the values of `cond`
(10_state.md R24), and the spec's suggested defaults of the four open parameters (R6). -/

namespace Sys2Proof.Machine

/-- `KBSR`, the keyboard status address (R5). -/
def kbsr : Word := 0xFE00
/-- `KBDR`, the keyboard data address (R5). -/
def kbdr : Word := 0xFE02

/-- NEGATIVE alone (10_state.md R24, decision D3). -/
def condN : BitVec 3 := 0b100
/-- ZERO alone (10_state.md R24, decision D3). -/
def condZ : BitVec 3 := 0b010
/-- POSITIVE alone (10_state.md R24, decision D3). -/
def condP : BitVec 3 := 0b001

/-- The default of `PC_START` (R6, D5). DESIGN CHOICE, unsafe: log entry 3. -/
def defaultPcStart : Word := 0x3000
/-- The default of `MEM_FILL` (R6, D6). DESIGN CHOICE, unsafe: log entry 2. -/
def defaultMemFill : Config.MemFill := .word 0x0000
/-- The default of `IN_PROMPT`: the 19 bytes of `Enter a character: ` (R6, D15). DESIGN CHOICE, unsafe: log entry 4. -/
def defaultInPrompt : List Byte :=
  [0x45, 0x6E, 0x74, 0x65, 0x72, 0x20, 0x61, 0x20, 0x63, 0x68, 0x61, 0x72, 0x61, 0x63, 0x74, 0x65, 0x72, 0x3A, 0x20]
/-- The default of `HALT_NOTICE`: `HALT` and a line feed (R6, D16). DESIGN CHOICE, unsafe: log entry 4. -/
def defaultHaltNotice : List Byte := [0x48, 0x41, 0x4C, 0x54, 0x0A]

/-- The spec's suggested value of every open parameter (R6). -/
def defaultParams : Config.Params where
  pcStart := defaultPcStart
  memFill := defaultMemFill
  inPrompt := defaultInPrompt
  haltNotice := defaultHaltNotice

end Sys2Proof.Machine
end

