-- ==== Sys2Proof/Machine/State.lean ====
section
/-! DEFINITION. The state of the machine: the tuple `( x[0..7], pc, cond, run, M, INQ, OUT )` of 10_state.md with the
output device's `flushed` (R32), and two fields of the model's own: where the core holds (40_cycle.md R113(c)) and the
values of the open parameters (00_scope.md R6). All of it is plain data. -/

namespace Sys2Proof.Machine

/-- The eight general registers (10_state.md R20). One bank, none hard-wired. -/
structure RegFile where
  r0 : Word
  r1 : Word
  r2 : Word
  r3 : Word
  r4 : Word
  r5 : Word
  r6 : Word
  r7 : Word
deriving DecidableEq, Repr

/-- The execution state (10_state.md R27). -/
inductive RunState where
  /-- The core executes instructions. -/
  | running
  /-- The HALT routine has executed; nothing more is executed. -/
  | halted
  /-- A reserved opcode was executed; nothing more is executed. -/
  | faulted
deriving DecidableEq, Repr

/-- The instruction inside which the core waits for the host to append a byte (40_cycle.md R113(c), 44_trap.md R151).
Only GETC and IN can hold. -/
inductive HoldPoint where
  /-- Inside GETC, nothing done yet but the fetch (R152). -/
  | inGetc
  /-- Inside IN, its prompt already emitted (R155). -/
  | inIn
deriving DecidableEq, Repr

/-- Memory (10_state.md R29): the cells that differ from `Memory.unlisted`, as pairs of an address and a 16-bit cell.
The machine has no smaller unit than the cell (20_memory.md R50, R58; log entry 1). -/
abbrev Memory := List (Nat × Word)

/-- What an address that the list does not hold reads as. It is the default of `MEM_FILL` (R34; log entry 2); another
`MEM_FILL`, a word or "any", lists its cells (`Memory.ofCells`). -/
def Memory.unlisted : Word := 0x0000

/-- The canonical form: addresses strictly rising, every address inside the 65,536 cells, no entry equal to what an
unlisted address reads as. -/
abbrev Memory.wf (m : Memory) : Prop :=
  m.Pairwise (fun p q => p.1 < q.1) ∧ ∀ p ∈ m, p.1 < 65536 ∧ p.2 ≠ Memory.unlisted

/-- The complete state (10_state.md, opening tuple). -/
structure State where
  /-- `x[0..7]` (R20). -/
  regs : RegFile
  /-- `pc` (R22): the address of the next instruction; inside an instruction, the instruction's address plus one. -/
  pc : Word
  /-- `cond` (R24): bit 2 NEGATIVE, bit 1 ZERO, bit 0 POSITIVE. -/
  cond : BitVec 3
  /-- `run` (R27). -/
  run : RunState
  /-- `M[0x0000..0xFFFF]` (R29), the keyboard cells `M[0xFE00]` and `M[0xFE02]` among them (R30). -/
  mem : Memory
  /-- `INQ` (R31): the bytes the host has supplied and the core has not consumed, oldest first. -/
  inq : List Byte
  /-- `OUT` (R32): the bytes the core has written, oldest first. -/
  out : List Byte
  /-- How many bytes of `OUT` have been delivered to the host (R32). -/
  flushed : Nat
  /-- The model's own field: inside which instruction the core holds, if it does (R113(c), R151; log entry 6). -/
  hold : Option HoldPoint
  /-- The model's own field: the open parameters of this machine (R6), which no step writes (log entry 4). -/
  params : Config.Params
deriving DecidableEq, Repr

/-- Why a step answers no next state. -/
inductive Fault where
  /-- Raised by `step` alone, when `run` is HALTED: "there is no step: the machine is at rest" (R110). Safe. -/
  | atRestHalted
  /-- Raised by `step` alone, when `run` is FAULTED: there is no step (R110). Safe. -/
  | atRestFaulted
  /-- The stuck state of U9 and D31, PUTS or PUTSP over a string without end. Raised by `execTrapPuts`,
  `execTrapPutsp`, and `execTrap` on their codes, if the string loop met no zero cell within its bound, which no
  state can bring about (log entry 10). Safe. -/
  | stringNeverEnds
deriving DecidableEq, Repr

/-- Why an instruction has no meaning here. -/
inductive Refusal where
  /-- Raised by `exec` alone, for an instruction the model gives no meaning to yet. No arm uses it now. Safe. -/
  | notModelled (mnemonic : String)
deriving DecidableEq, Repr

/-- The three outcomes of a step on this machine. -/
abbrev Result := Host.Outcome State Fault Refusal

/-- The machine right after reset (10_state.md R34, 70_reset_and_hazards.md R210), with the spec's defaults of the open
parameters, no image loaded and no input supplied yet (log entries 2 to 5). -/
def State.reset : State where
  regs := ⟨0x0000, 0x0000, 0x0000, 0x0000, 0x0000, 0x0000, 0x0000, 0x0000⟩
  pc := defaultParams.pcStart
  cond := 0b000
  run := .running
  mem := []
  inq := []
  out := []
  flushed := 0
  hold := none
  params := defaultParams

end Sys2Proof.Machine
end

