-- ==== Sys2Proof/Machine/Ops.lean ====
section
/-! DEFINITION. The named operations over registers, memory and devices: the primitives of 00_scope.md R11, with the
keyboard poll of 20_memory.md R53, the fetch of 40_cycle.md R111 and the one fault of 60_exceptions.md R180. Taking
that fault is `raiseIllegalOpcode`; there is no return from it (R182), and none from a trap (R187), to stand beside it. -/

namespace Sys2Proof.Machine

/-! ### General registers (10_state.md R20) -/

/-- `x[i]` (R20). -/
def RegFile.get (f : RegFile) : Reg → Word
  | .r0 => f.r0 | .r1 => f.r1 | .r2 => f.r2 | .r3 => f.r3 | .r4 => f.r4 | .r5 => f.r5 | .r6 => f.r6 | .r7 => f.r7

/-- `x[i] <- v`: all 16 bits of one register and nothing else (R20). -/
def RegFile.set (f : RegFile) (r : Reg) (v : Word) : RegFile :=
  match r with
  | .r0 => { f with r0 := v } | .r1 => { f with r1 := v } | .r2 => { f with r2 := v } | .r3 => { f with r3 := v }
  | .r4 => { f with r4 := v } | .r5 => { f with r5 := v } | .r6 => { f with r6 := v } | .r7 => { f with r7 := v }

/-- `x[i]` (R11, R20). -/
def State.getReg (s : State) (r : Reg) : Word := s.regs.get r
/-- `x[i] <- v`: "writes nothing else (in particular not `cond`)" (R11, R20). -/
def State.setReg (s : State) (r : Reg) (v : Word) : State := { s with regs := s.regs.set r v }
/-- `pc <- target` (R11, R22). -/
def State.setPc (s : State) (v : Word) : State := { s with pc := v }
/-- `cond <- c` (R24), called by `setcc` only. -/
def State.setCond (s : State) (c : BitVec 3) : State := { s with cond := c }
/-- `run <- r` (R27). -/
def State.setRun (s : State) (r : RunState) : State := { s with run := r }
/-- `M <- m` (R29). -/
def State.setMem (s : State) (m : Memory) : State := { s with mem := m }
/-- `INQ <- q` (R31). -/
def State.setInq (s : State) (q : List Byte) : State := { s with inq := q }
/-- `OUT <- o` (R32). -/
def State.setOut (s : State) (o : List Byte) : State := { s with out := o }
/-- `flushed <- n` (R32). -/
def State.setFlushed (s : State) (n : Nat) : State := { s with flushed := n }
/-- Where the core holds, from now on (R113(c)). -/
def State.setHold (s : State) (h : Option HoldPoint) : State := { s with hold := h }

/-! ### Memory as stored (10_state.md R29) -/

/-- The cell at a key of the list, the unlisted value where the list has none. -/
def Memory.lookup (a : Nat) : Memory → Word
  | [] => Memory.unlisted
  | (b, u) :: rest => if a = b then u else Memory.lookup a rest

/-- The list without any entry at a key. -/
def Memory.remove (a : Nat) : Memory → Memory
  | [] => []
  | (b, u) :: rest => if b = a then Memory.remove a rest else (b, u) :: Memory.remove a rest

/-- The list with an entry put before the first higher key. -/
def Memory.insert (a : Nat) (v : Word) : Memory → Memory
  | [] => [(a, v)]
  | (b, u) :: rest => if a < b then (a, v) :: (b, u) :: rest else (b, u) :: Memory.insert a v rest

/-- `M[a]`: the stored content, with no side effect (R11). -/
def Memory.read (m : Memory) (a : Word) : Word := m.lookup a.toNat

/-- `M[a] <- v`. Writing what an unlisted address reads as removes the entry. -/
def Memory.write (m : Memory) (a v : Word) : Memory :=
  if v = Memory.unlisted then m.remove a.toNat else (m.remove a.toNat).insert a.toNat v

/-- The memory that holds a given word at each of `n` addresses from `a` on. -/
def Memory.cellsFrom (f : Word → Word) : Nat → Nat → Memory
  | 0, _ => []
  | n + 1, a =>
    if f (BitVec.ofNat 16 a) = Memory.unlisted then Memory.cellsFrom f n (a + 1)
    else (a, f (BitVec.ofNat 16 a)) :: Memory.cellsFrom f n (a + 1)

/-- The memory that holds a given word at every one of the 65,536 addresses: "an arbitrary function" as data (R34). -/
def Memory.ofCells (f : Word → Word) : Memory := Memory.cellsFrom f 65536 0

/-! ### The input and output devices (10_state.md R31, R32) -/

/-- `zext_8`: a byte in bits 7:0, zero in bits 15:8 (R11, 20_memory.md R58). -/
def zext8 (b : Byte) : Word := b.setWidth 16
/-- Bits 7:0 of a word (R9). -/
def lowByte (w : Word) : Byte := w.extractLsb' 0 8
/-- Bits 15:8 of a word (R9). -/
def highByte (w : Word) : Byte := w.extractLsb' 8 8

/-- `InAvail()`: is a byte pending (R31). -/
def inAvail (s : State) : Bool := !s.inq.isEmpty

/-- `InTake()`: the oldest pending byte, removed (R31). None when there is none, which is what `InAvail` tests. -/
def inTake (s : State) : Option (Byte × State) :=
  match s.inq with
  | [] => none
  | b :: rest => some (b, s.setInq rest)

/-- `OutPut(b)`: append a byte (R32). -/
def outPut (b : Byte) (s : State) : State := s.setOut (s.out ++ [b])

/-- `OutPut` of each byte, in order (R155, R158). -/
def outPutAll (bs : List Byte) (s : State) : State := s.setOut (s.out ++ bs)

/-- `OutFlush()`: everything appended so far is delivered (R32). -/
def outFlush (s : State) : State := s.setFlushed s.out.length

/-! ### Memory as the core reaches it (20_memory.md R52 to R54) -/

/-- `KeyboardPoll()` (R53). -/
def keyboardPoll (s : State) : State :=
  match inTake s with
  | some (b, s') => s'.setMem ((s'.mem.write kbsr 0x8000).write kbdr (zext8 b))
  | none => s.setMem (s.mem.write kbsr 0x0000)

/-- `MemRead(a, 16)` (R52): the word read, and the state after the poll that a read of KBSR makes first. -/
def memRead (a : Word) (s : State) : Word × State :=
  if a = kbsr then ((keyboardPoll s).mem.read a, keyboardPoll s) else (s.mem.read a, s)

/-- `MemWrite(a, 16, v)`: "unconditional store; no side effects beyond the store itself" (R54), the keyboard cells
included (R55). -/
def memWrite (a v : Word) (s : State) : State := s.setMem (s.mem.write a v)

/-! ### Fetch (40_cycle.md R111) and the fault (60_exceptions.md R180) -/

/-- Fetch: `bits <- MemRead(pc, 16)`, then `pc <- pc + 1` modulo 65,536 (R110, R111). -/
def fetch (s : State) : Word × State :=
  ((memRead s.pc s).1, (memRead s.pc s).2.setPc (s.pc + 1))

/-- `raise IllegalOpcode`: `run <- FAULTED`, nothing else is written and nothing recorded (R180). The fetch has been
done, so `pc` is the offending instruction's address plus one. -/
def raiseIllegalOpcode (s : State) : State := s.setRun .faulted

end Sys2Proof.Machine
end

