-- ==== Sys2Proof/Machine/Flags.lean ====
section
/-! DEFINITION. The condition-code logic of 40_cycle.md R115, and the register write of the seven instructions that
set the flags (R116). The machine has no other flag (41_operate.md R125). -/

namespace Sys2Proof.Machine

/-- The condition of a word: Z for zero, else N when bit 15 is set, else P (R115). -/
def condOf (v : Word) : BitVec 3 :=
  if v = 0x0000 then condZ else if v.getLsbD 15 then condN else condP

/-- `setcc(v)` (R115): the whole register is replaced. -/
def setcc (v : Word) (s : State) : State := s.setCond (condOf v)

/-- `x[DR] <- v; setcc(v)`, the end of ADD, AND, NOT, LD, LDI, LDR and LEA (R116). -/
def writeResult (d : Reg) (v : Word) (s : State) : State := setcc v (s.setReg d v)

/-- BR's test: (mask & cond) ≠ 0, bit for bit (42_control.md R130, decision D3). -/
def branchTaken (m : BitVec 3) (s : State) : Bool := decide (m &&& s.cond ≠ 0#3)

end Sys2Proof.Machine
end

