-- ==== Sys2Proof/Machine/Operands.lean ====
section
/-! DEFINITION. Sign extension (40_cycle.md R114), the operand forms of 30_encoding.md R85 and R86, and the addressing
modes of 43_load_store.md R147. Inside an instruction `pc` is the instruction's address plus one (10_state.md R22). -/

namespace Sys2Proof.Machine

/-- `sext_N(v)`: the field read as a two's-complement number of `n` bits, as a 16-bit word (R114). -/
def sext {n : Nat} (v : BitVec n) : Word := v.signExtend 16

/-- The immediate operand of ADD and AND, `sext_5(imm5)` (R85, R86). -/
def immOperand (i : BitVec 5) : Word := sext i

/-- The address `pc + sext_9(PCoffset9)` of BR, LD, LDI, LEA, ST and STI (R147, R130). -/
def pcRel9 (s : State) (o : BitVec 9) : Word := s.pc + sext o

/-- The target `pc + sext_11(PCoffset11)` of JSR (R132). -/
def pcRel11 (s : State) (o : BitVec 11) : Word := s.pc + sext o

/-- The address `x[BaseR] + sext_6(offset6)` of LDR and STR (R147). -/
def baseOff6 (s : State) (b : Reg) (o : BitVec 6) : Word := s.getReg b + sext o

end Sys2Proof.Machine
end

