-- ==== Sys2Proof/Machine/Control.lean ====
section
/-! DEFINITION. The instructions of 42_control.md: BR, JMP, JSR, JSRR. None touches memory or `cond`. -/

namespace Sys2Proof.Machine

/-- BR (R130). -/
def execBr (m : BitVec 3) (o : BitVec 9) (s : State) : Result :=
  .next (if branchTaken m s then s.setPc (pcRel9 s o) else s)

/-- JMP, and RET when the register is r7 (R131). -/
def execJmp (b : Reg) (s : State) : Result :=
  .next (s.setPc (s.getReg b))

/-- JSR (R132): the incremented `pc` is saved, then the jump. -/
def execJsr (o : BitVec 11) (s : State) : Result :=
  .next ((s.setReg .r7 s.pc).setPc (pcRel11 s o))

/-- JSRR (R133): the save comes first, so with BaseR = 7 the target is the `pc` just saved. -/
def execJsrr (b : Reg) (s : State) : Result :=
  .next ((s.setReg .r7 s.pc).setPc ((s.setReg .r7 s.pc).getReg b))

end Sys2Proof.Machine
end

