-- ==== Sys2Proof/Machine/DataMove.lean ====
section
/-! DEFINITION. The instructions of 43_load_store.md: LD, LDI, LDR, LEA, ST, STI, STR. Every access is one cell
through `memRead` or `memWrite`, as many as 20_memory.md R68 counts. -/

namespace Sys2Proof.Machine

/-- The end of a load: `x[DR] <- v; setcc(v)` with the word and the state a `MemRead` gave (R140, R141, R142). -/
def finishLoad (d : Reg) (r : Word × State) : State := writeResult d r.1 r.2

/-- LD (R140). -/
def execLd (d : Reg) (o : BitVec 9) (s : State) : Result :=
  .next (finishLoad d (memRead (pcRel9 s o) s))

/-- LDI (R141): the second access reads at the word the first one gave, in the state the first one left. -/
def execLdi (d : Reg) (o : BitVec 9) (s : State) : Result :=
  .next (finishLoad d (memRead (memRead (pcRel9 s o) s).1 (memRead (pcRel9 s o) s).2))

/-- LDR (R142). -/
def execLdr (d b : Reg) (o : BitVec 6) (s : State) : Result :=
  .next (finishLoad d (memRead (baseOff6 s b o) s))

/-- LEA (R143): the address, not a load. -/
def execLea (d : Reg) (o : BitVec 9) (s : State) : Result :=
  .next (writeResult d (pcRel9 s o) s)

/-- ST (R144). -/
def execSt (r : Reg) (o : BitVec 9) (s : State) : Result :=
  .next (memWrite (pcRel9 s o) (s.getReg r) s)

/-- STI (R145): a read of the pointer, then the write. -/
def execSti (r : Reg) (o : BitVec 9) (s : State) : Result :=
  .next (memWrite (memRead (pcRel9 s o) s).1 (s.getReg r) (memRead (pcRel9 s o) s).2)

/-- STR (R146). -/
def execStr (r b : Reg) (o : BitVec 6) (s : State) : Result :=
  .next (memWrite (baseOff6 s b o) (s.getReg r) s)

end Sys2Proof.Machine
end

