-- ==== Sys2Proof/Machine/Operate.lean ====
section
/-! DEFINITION. The instructions of 41_operate.md: ADD, AND, NOT. Sources are read before the destination is written. -/

namespace Sys2Proof.Machine

/-- ADD, register form (R120). -/
def execAddReg (d a b : Reg) (s : State) : Result :=
  .next (writeResult d (s.getReg a + s.getReg b) s)

/-- ADD, immediate form (R121). -/
def execAddImm (d a : Reg) (i : BitVec 5) (s : State) : Result :=
  .next (writeResult d (s.getReg a + immOperand i) s)

/-- AND, register form (R122). -/
def execAndReg (d a b : Reg) (s : State) : Result :=
  .next (writeResult d (s.getReg a &&& s.getReg b) s)

/-- AND, immediate form (R123). -/
def execAndImm (d a : Reg) (i : BitVec 5) (s : State) : Result :=
  .next (writeResult d (s.getReg a &&& immOperand i) s)

/-- NOT (R124). -/
def execNot (d a : Reg) (s : State) : Result :=
  .next (writeResult d (~~~ s.getReg a) s)

end Sys2Proof.Machine
end

