-- ==== Sys2Proof/Machine/Reserved.lean ====
section
/-! DEFINITION. The two reserved opcodes of 45_reserved.md. Each raises the machine's one fault, which the spec
describes (60_exceptions.md R180), so each has a next state: `run` is FAULTED there, and no step follows. -/

namespace Sys2Proof.Machine

/-- RTI, not a return from interrupt here (R170). -/
def execRti (s : State) : Result := .next (raiseIllegalOpcode s)

/-- RES (R171). -/
def execRes (s : State) : Result := .next (raiseIllegalOpcode s)

end Sys2Proof.Machine
end

