-- ==== Sys2Proof/Machine/Trap.lean ====
section
/-! DEFINITION. TRAP and its six routines (44_trap.md). The core carries a routine out as the body of the TRAP
instruction (60_exceptions.md R186): no vector, no saved address, no mode. Each routine is one operation of its own;
the meanings of the rows below call them. -/

namespace Sys2Proof.Machine

/-! ### Character input, which may hold (R151, R152, R155) -/

/-- GETC from its wait on: hold while no byte is pending, else take one into `x[0]` (R151, R152). -/
def getcTake (s : State) : State :=
  match inTake s with
  | none => s.setHold (some .inGetc)
  | some (c, s') => (s'.setReg .r0 (zext8 c)).setHold none

/-- IN from its wait on, the prompt already emitted: hold while no byte is pending, else take one, echo it, flush, and
put it in `x[0]` (R151, R155). -/
def inTakeEcho (s : State) : State :=
  match inTake s with
  | none => s.setHold (some .inIn)
  | some (c, s') => ((outFlush (outPut c s')).setReg .r0 (zext8 c)).setHold none

/-- IN: the prompt, then the wait and the rest (R155). -/
def inRoutine (s : State) : State := inTakeEcho (outPutAll s.params.inPrompt s)

/-- The holding instruction goes on: from its wait, with whatever the host has appended meanwhile (R113(c), R151). -/
def resume (h : HoldPoint) (s : State) : State :=
  match h with
  | .inGetc => getcTake s
  | .inIn => inTakeEcho s

/-! ### Character output (R153, R154, R156) -/

/-- OUT: the low byte of `x[0]`, flushed at once (R153). -/
def outRoutine (s : State) : State := outFlush (outPut (lowByte (s.getReg .r0)) s)

/-- What PUTS sends for one non-zero cell: its low byte (R154). -/
def putsBytes (c : Word) : List Byte := [lowByte c]

/-- What PUTSP sends for one non-zero cell: its low byte, always, then its high byte unless that is zero (R156). -/
def putspBytes (c : Word) : List Byte :=
  if highByte c = 0 then [lowByte c] else [lowByte c, highByte c]

/-- The loop of PUTS and PUTSP (R154, R156): read the cell at `a`, stop on a zero cell, else send its bytes and go on at
`a + 1` modulo 65,536. None when `fuel` cells held no zero cell. -/
def stringLoop (emit : Word → List Byte) : Nat → Word → State → Option State
  | 0, _, _ => none
  | fuel + 1, a, s =>
    if (memRead a s).1 = 0x0000 then some (memRead a s).2
    else stringLoop emit fuel (a + 1) (outPutAll (emit (memRead a s).1) (memRead a s).2)

/-- A bound on the cells a string can have: each pass round memory reads KBSR once, whose poll takes a pending byte or
makes the cell zero, and nothing is appended meanwhile (R53, R150; log entry 10). -/
def stringFuel (s : State) : Nat := 65536 * (s.inq.length + 1)

/-- PUTS and PUTSP: the loop from `x[0]`, then one flush (R154, R156). -/
def stringRoutine (emit : Word → List Byte) (s : State) : Result :=
  match stringLoop emit (stringFuel s) (s.getReg .r0) s with
  | some t => .next (outFlush t)
  | none => .fault .stringNeverEnds

/-! ### HALT (R158) -/

/-- HALT: the notice, a flush, `run <- HALTED` (R158). -/
def haltRoutine (s : State) : State := (outFlush (outPutAll s.params.haltNotice s)).setRun .halted

/-! ### The meanings of the rows -/

/-- TRAP x20, GETC (R152). -/
def execTrapGetc (s : State) : Result := .next (getcTake s)

/-- TRAP x21, OUT (R153). -/
def execTrapOut (s : State) : Result := .next (outRoutine s)

/-- TRAP x22, PUTS (R154). -/
def execTrapPuts (s : State) : Result := stringRoutine putsBytes s

/-- TRAP x23, IN (R155). -/
def execTrapIn (s : State) : Result := .next (inRoutine s)

/-- TRAP x24, PUTSP (R156). -/
def execTrapPutsp (s : State) : Result := stringRoutine putspBytes s

/-- TRAP x25, HALT (R158). -/
def execTrapHalt (s : State) : Result := .next (haltRoutine s)

/-- The generic row TRAP (R150): dispatch on the code. A well-formed instruction of this row has a code that names no
routine, "a silent no-op" (R159); for the six codes the dispatch is R150's all the same (log entry 25). -/
def execTrap (v : BitVec 8) (s : State) : Result :=
  if v = 0x20#8 then .next (getcTake s)
  else if v = 0x21#8 then .next (outRoutine s)
  else if v = 0x22#8 then stringRoutine putsBytes s
  else if v = 0x23#8 then .next (inRoutine s)
  else if v = 0x24#8 then stringRoutine putspBytes s
  else if v = 0x25#8 then .next (haltRoutine s)
  else .next s

end Sys2Proof.Machine
end

