-- ==== Sys2Proof/Machine/Dispatch.lean ====
section
/-! DEFINITION. `exec`: what an instruction does, `pc` being the instruction's address plus one (40_cycle.md R112). -/

namespace Sys2Proof.Machine

def exec (i : Instr) (s : State) : Host.Outcome State Fault Refusal :=
  match i with
  -- 41_operate.md
  | .addReg d a b => Sys2Proof.Machine.execAddReg d a b s
  | .addImm d a imm => Sys2Proof.Machine.execAddImm d a imm s
  | .andReg d a b => Sys2Proof.Machine.execAndReg d a b s
  | .andImm d a imm => Sys2Proof.Machine.execAndImm d a imm s
  | .not d a => Sys2Proof.Machine.execNot d a s
  -- 42_control.md
  | .br m o => Sys2Proof.Machine.execBr m o s
  | .jmp b => Sys2Proof.Machine.execJmp b s
  | .jsr o => Sys2Proof.Machine.execJsr o s
  | .jsrr b => Sys2Proof.Machine.execJsrr b s
  -- 43_load_store.md
  | .ld d o => Sys2Proof.Machine.execLd d o s
  | .ldi d o => Sys2Proof.Machine.execLdi d o s
  | .ldr d b o => Sys2Proof.Machine.execLdr d b o s
  | .lea d o => Sys2Proof.Machine.execLea d o s
  | .st r o => Sys2Proof.Machine.execSt r o s
  | .sti r o => Sys2Proof.Machine.execSti r o s
  | .str r b o => Sys2Proof.Machine.execStr r b o s
  -- 44_trap.md
  | .trap v => Sys2Proof.Machine.execTrap v s
  | .trapGetc => Sys2Proof.Machine.execTrapGetc s
  | .trapOut => Sys2Proof.Machine.execTrapOut s
  | .trapPuts => Sys2Proof.Machine.execTrapPuts s
  | .trapIn => Sys2Proof.Machine.execTrapIn s
  | .trapPutsp => Sys2Proof.Machine.execTrapPutsp s
  | .trapHalt => Sys2Proof.Machine.execTrapHalt s
  -- 45_reserved.md
  | .rti => Sys2Proof.Machine.execRti s
  | .res => Sys2Proof.Machine.execRes s

end Sys2Proof.Machine
end

