-- ==== Sys2Proof/Machine/Step.lean ====
section
/-! DEFINITION. One step of the core (40_cycle.md R110), and the placing of an instruction where the core fetches. -/

namespace Sys2Proof.Machine

/-- One step (R110): `require run = RUNNING`, fetch, decode, execute. A core that holds inside GETC or IN goes on from
its wait instead of fetching (R113(c), R151; log entry 6). When `run` is HALTED or FAULTED "there is no step". -/
def step (s : State) : Host.Outcome State Fault Refusal :=
  match s.run with
  | .halted => .fault .atRestHalted
  | .faulted => .fault .atRestFaulted
  | .running =>
    match s.hold with
    | some h => .next (resume h s)
    | none => exec (decode (fetch s).1) (fetch s).2

/-- `s` with an instruction word in the cell the core fetches from, as the load port puts it there (70_reset_and_hazards.md
R213), and the core ready to fetch: RUNNING and not holding. At `pc` = 0xFE00 a fetch polls and overwrites the cell
(R111), so no placing can make that fetch read the word (log entry 20). -/
def State.withFetchWord (s : State) (nbits w : Nat) : State :=
  { s with mem := s.mem.write s.pc (tableWord nbits w), run := .running, hold := none }

end Sys2Proof.Machine
end

