-- ==== Sys2Proof/Machine/Interfaces.lean ====
section
/-! DEFINITION. What the host can do to the core (00_scope.md R8, 60_exceptions.md R196, R199): load memory before the
run, reset, append input, read the output and the run status, and let the core step under any schedule. Nothing of it
is done by `step`. The image format is kept so that a test bench can build the initial memory (70_reset_and_hazards.md
R213 to R215); the parsing itself is outside the core (R4). -/

namespace Sys2Proof.Machine

/-! ### The load port and images (R213 to R215) -/

/-- The load port: set one cell before the run, and nothing else (R213). -/
def hostLoad (a v : Word) (s : State) : State := s.setMem (s.mem.write a v)

/-- An image: its origin and its words (R214). -/
structure Image where
  origin : Word
  words : List Word
deriving DecidableEq, Repr

/-- The 16-bit number of two file bytes, the first the high one: `b0 ++ b1` (R214). -/
def bigEndianWord (hi lo : Byte) : Word := hi ++ lo

/-- The words of a sequence of file bytes; none when a byte is left over, a case the spec leaves open (N17). -/
def parseWords : List Byte → Option (List Word)
  | [] => some []
  | [_] => none
  | hi :: lo :: rest => (parseWords rest).map (bigEndianWord hi lo :: ·)

/-- An image file: a 16-bit big-endian origin, then 16-bit big-endian words (R214). -/
def parseImage (file : List Byte) : Option Image :=
  match parseWords file with
  | some (o :: ws) => some ⟨o, ws⟩
  | _ => none

/-- The words of an image, stored from an address on, the address wrapping as every address does (20_memory.md R51). -/
def loadWords (a : Word) : List Word → State → State
  | [], s => s
  | w :: ws, s => loadWords (a + 1) ws (hostLoad a w s)

/-- One image placed at its origin; none when words would fall beyond 0xFFFF, a case the spec leaves open (N17). -/
def hostLoadImage (i : Image) (s : State) : Option State :=
  if i.origin.toNat + i.words.length ≤ 65536 then some (loadWords i.origin i.words s) else none

/-- Several images in sequence: where two overlap the later one wins (R215). -/
def hostLoadImages : List Image → State → Option State
  | [], s => some s
  | i :: is, s => (hostLoadImage i s).bind (hostLoadImages is)

/-! ### Reset (R210, R34) -/

/-- What a cell that no image wrote holds after reset: the word `MEM_FILL` gives, or, when it is "any", whatever that
cell was drawn to hold (R34, D6; log entry 2). -/
def unloadedCell (fill : Config.MemFill) (drawn : Word → Word) (a : Word) : Word :=
  match fill with
  | .word v => v
  | .any => drawn a

/-- The state after reset of a machine with these parameters, before any image is loaded, with the input the host has
supplied so far (R34). Under `MEM_FILL` "any" each cell is as `drawn`, which nothing constrains; under a word `drawn`
plays no part. -/
def powerOn (p : Config.Params) (drawn : Word → Word) (inq : List Byte) : State :=
  { State.reset with pc := p.pcStart, mem := Memory.ofCells (unloadedCell p.memFill drawn), inq := inq, params := p }

/-- Reset of a machine in any state, and the loading of its images while the core is held in reset (R199, R210): every
piece of state at its value of R34. "INQ: whatever the host has supplied; not reset by the core". The cells of a
`MEM_FILL` "any" are drawn anew for the run that begins. -/
def hostReset (images : List Image) (drawn : Word → Word) (s : State) : Option State :=
  hostLoadImages images (powerOn s.params drawn s.inq)

/-! ### Input, output, run status (R8, R31, R32, R196) -/

/-- The host appends a byte to the end of `INQ`, between two steps or while the core holds (R196). -/
def hostAppend (b : Byte) (s : State) : State := s.setInq (s.inq ++ [b])

/-- What of `OUT` has been delivered to the host (R32, R199). -/
def hostDelivered (s : State) : List Byte := s.out.take s.flushed

/-- The run status (R8, R27, R198). -/
def hostRunStatus (s : State) : RunState := s.run

/-- What happens next in a run: the core makes a step, or the host appends a byte (R196). -/
inductive Event where
  | core
  | input (b : Byte)
deriving DecidableEq, Repr

/-- A run under a schedule of core steps and host appends, up to the first step that answers no next state (R196,
decision D29). -/
def runSchedule : List Event → State → Result
  | [], s => .next s
  | .input b :: es, s => runSchedule es (hostAppend b s)
  | .core :: es, s =>
    match step s with
    | .next t => runSchedule es t
    | .fault f => .fault f
    | .refused r => .refused r

end Sys2Proof.Machine
end

