-- ==== Sys2Proof/Safety.lean ====
section
/-! DEFINITION. What a legal state is, in the terms the statements use, and what a safe run avoids: the machine's one
fault (60_exceptions.md R180, R181). -/

namespace Sys2Proof.Safety

open Sys2Proof.Machine

/-- One condition is set (10_state.md R24). -/
def OneHot (c : BitVec 3) : Prop := c = condN ∨ c = condZ ∨ c = condP

/-- The values `cond` takes: none set, after reset, or exactly one (R25). -/
def CondLegal (c : BitVec 3) : Prop := c = 0b000 ∨ OneHot c

/-- Everything written has been delivered, but for the prompt of an IN that waits (R32, 44_trap.md R155). -/
def OutputLegal (s : State) : Prop :=
  if s.hold = some .inIn then s.flushed + s.params.inPrompt.length = s.out.length else s.flushed = s.out.length

/-- The invariant of the machine: memory in its canonical form, `cond` a legal value, output delivered at every
instruction boundary, and a core at rest not inside an instruction. -/
def Inv (s : State) : Prop :=
  s.mem.wf ∧ CondLegal s.cond ∧ OutputLegal s ∧ (s.run ≠ .running → s.hold = none)

/-- The machine has not met its one fault. -/
def NotFaulted (s : State) : Prop := s.run ≠ .faulted

end Sys2Proof.Safety
end

