-- ==== Sys2Proof/Certificates/Slice0/Obligations.lean ====
section
/-! DEFINITION. The statements for the provers, and the vocabulary they are written in. Inside `exec`, `pc` is the
instruction's address plus one (10_state.md R22), so `s.pc` below is what the spec's pseudocode calls `pc`. A statement
about `exec` needs no hypothesis on `run` or `hold`: it holds in every state. Where a statement rests on a decision of
the spec (92_eei_decisions.md) or on a convention of the model, its docstring names the decision or the log entry. -/

namespace Sys2Proof.Claims

open Sys2Proof.Machine

/-! ### What stays -/

/-- Every general register but those listed is unchanged. -/
def RegsExcept (ds : List Reg) (s t : State) : Prop := ∀ r, r ∉ ds → t.getReg r = s.getReg r
/-- Every cell but those listed reads as before. -/
def MemExcept (cells : List Word) (s t : State) : Prop := ∀ a, a ∉ cells → t.mem.read a = s.mem.read a
/-- The input queue is unchanged. -/
def InputSame (s t : State) : Prop := t.inq = s.inq
/-- The output and its delivered count are unchanged. -/
def OutputSame (s t : State) : Prop := t.out = s.out ∧ t.flushed = s.flushed
/-- The execution state, the hold and the parameters are unchanged. -/
def ModeSame (s t : State) : Prop := t.run = s.run ∧ t.hold = s.hold ∧ t.params = s.params
/-- Nothing but registers, `cond` and `pc` may have changed. -/
def OutsideSame (s t : State) : Prop := MemExcept [] s t ∧ InputSame s t ∧ OutputSame s t ∧ ModeSame s t

/-! ### The spec's functions, in numbers -/

/-- The condition of a word, read as a number: Z for 0, N for 0x8000 and above, P for the rest (R115, R24). -/
def conditionOf (v : Word) : BitVec 3 :=
  if v.toNat = 0 then 0b010 else if 0x8000 ≤ v.toNat then 0b100 else 0b001
/-- A byte as a word, its high byte zero (R10). -/
def byteWord (c : Byte) : Word := BitVec.ofNat 16 c.toNat
/-- What PUTS sends for a cell (R154). -/
def putsSends (c : Word) : List Byte := [BitVec.ofNat 8 (c.toNat % 256)]
/-- What PUTSP sends for a cell (R156). -/
def putspSends (c : Word) : List Byte :=
  if c.toNat / 256 = 0 then [BitVec.ofNat 8 (c.toNat % 256)]
  else [BitVec.ofNat 8 (c.toNat % 256), BitVec.ofNat 8 (c.toNat / 256)]

/-- `MemRead(a, 16)` as a relation (R52, R53): from the memory and the input of `s` it gives `v` and leaves the memory
and the input of `u`. Only a read of 0xFE00 changes anything. -/
def Reads (a : Word) (s : State) (v : Word) (u : State) : Prop :=
  if a = 0xFE00 then
    match s.inq with
    | [] => v = 0x0000 ∧ u.mem.read 0xFE00 = 0x0000 ∧ MemExcept [0xFE00] s u ∧ u.inq = []
    | c :: q => v = 0x8000 ∧ u.mem.read 0xFE00 = 0x8000 ∧ u.mem.read 0xFE02 = byteWord c ∧
        MemExcept [0xFE00, 0xFE02] s u ∧ u.inq = q
  else v = s.mem.read a ∧ MemExcept [] s u ∧ u.inq = s.inq

/-- The loop of PUTS and PUTSP as a relation (R154, R156): from the cell at an address on, in the memory and input of a
state, it sends a list of bytes and leaves the memory and the input of the last state. -/
inductive StringRun (sends : Word → List Byte) : Word → State → List Byte → State → Prop where
  | stop {a : Word} {s u : State} (h : Reads a s 0x0000 u) : StringRun sends a s [] u
  | more {a c : Word} {s u t : State} {bs : List Byte} (h : Reads a s c u) (hc : c ≠ 0x0000)
      (rest : StringRun sends (a + 1) u bs t) : StringRun sends a s (sends c ++ bs) t

/-! ### Which instruction writes what (10_state.md R36, 40_cycle.md R116) -/

/-- The destination of the seven instructions that set the condition codes (R116). -/
def flagDest : Instr → Option Reg
  | .addReg d _ _ | .addImm d _ _ | .andReg d _ _ | .andImm d _ _ | .not d _ => some d
  | .ld d _ | .ldi d _ | .ldr d _ _ | .lea d _ => some d
  | .br _ _ | .jmp _ | .jsr _ | .jsrr _ | .st _ _ | .sti _ _ | .str _ _ _ | .trap _ => none
  | .trapGetc | .trapOut | .trapPuts | .trapIn | .trapPutsp | .trapHalt | .rti | .res => none

/-- The general registers an instruction writes (R36). -/
def regsWritten : Instr → List Reg
  | .addReg d _ _ | .addImm d _ _ | .andReg d _ _ | .andImm d _ _ | .not d _ => [d]
  | .ld d _ | .ldi d _ | .ldr d _ _ | .lea d _ => [d]
  | .jsr _ | .jsrr _ => [.r7]
  | .trapGetc | .trapIn => [.r0]
  | .br _ _ | .jmp _ | .st _ _ | .sti _ _ | .str _ _ _ | .trap _ => []
  | .trapOut | .trapPuts | .trapPutsp | .trapHalt | .rti | .res => []

/-- The cell a storing instruction stores to, with the functions its meaning uses (R144, R145, R146). -/
def cellsStored (s : State) : Instr → List Word
  | .st _ o => [pcRel9 s o]
  | .sti _ o => [(memRead (pcRel9 s o) s).1]
  | .str _ b o => [baseOff6 s b o]
  | .addReg _ _ _ | .addImm _ _ _ | .andReg _ _ _ | .andImm _ _ _ | .not _ _ => []
  | .ld _ _ | .ldi _ _ | .ldr _ _ _ | .lea _ _ | .br _ _ | .jmp _ | .jsr _ | .jsrr _ | .trap _ => []
  | .trapGetc | .trapOut | .trapPuts | .trapIn | .trapPutsp | .trapHalt | .rti | .res => []

/-- The register a storing instruction stores (R144, R145, R146). -/
def storeSource : Instr → Option Reg
  | .st r _ | .sti r _ | .str r _ _ => some r
  | .addReg _ _ _ | .addImm _ _ _ | .andReg _ _ _ | .andImm _ _ _ | .not _ _ => none
  | .ld _ _ | .ldi _ _ | .ldr _ _ _ | .lea _ _ | .br _ _ | .jmp _ | .jsr _ | .jsrr _ | .trap _ => none
  | .trapGetc | .trapOut | .trapPuts | .trapIn | .trapPutsp | .trapHalt | .rti | .res => none

/-- The instructions that read memory after their fetch (20_memory.md R57, R68). -/
def readsMemory : Instr → Bool
  | .ld _ _ | .ldi _ _ | .ldr _ _ _ | .sti _ _ | .trapPuts | .trapPutsp => true
  | .addReg _ _ _ | .addImm _ _ _ | .andReg _ _ _ | .andImm _ _ _ | .not _ _ | .lea _ _ => false
  | .st _ _ | .str _ _ _ | .br _ _ | .jmp _ | .jsr _ | .jsrr _ | .trap _ => false
  | .trapGetc | .trapOut | .trapIn | .trapHalt | .rti | .res => false

/-- The instructions that write `pc` (R36). -/
def writesPc : Instr → Bool
  | .br _ _ | .jmp _ | .jsr _ | .jsrr _ => true
  | .addReg _ _ _ | .addImm _ _ _ | .andReg _ _ _ | .andImm _ _ _ | .not _ _ | .lea _ _ => false
  | .ld _ _ | .ldi _ _ | .ldr _ _ _ | .st _ _ | .sti _ _ | .str _ _ _ | .trap _ => false
  | .trapGetc | .trapOut | .trapPuts | .trapIn | .trapPutsp | .trapHalt | .rti | .res => false

/-- The trap routines that take a character (R160). -/
def takesInput (i : Instr) : Prop := i = .trapGetc ∨ i = .trapIn
/-- The trap routines that send output (R160, R36). -/
def sendsOutput (i : Instr) : Prop :=
  i = .trapOut ∨ i = .trapPuts ∨ i = .trapIn ∨ i = .trapPutsp ∨ i = .trapHalt
/-- The two reserved opcodes (R89). -/
def isReserved (i : Instr) : Prop := i = .rti ∨ i = .res
/-- TRAP, in any of its rows (R150). -/
def isTrap (i : Instr) : Prop :=
  i = .trapGetc ∨ i = .trapOut ∨ i = .trapPuts ∨ i = .trapIn ∨ i = .trapPutsp ∨ i = .trapHalt ∨ ∃ v, i = .trap v

/-- Two states that differ at most in what has been written to the output device. -/
def SameButOutput (s t : State) : Prop := t = { s with out := t.out, flushed := t.flushed }

end Sys2Proof.Claims

open Sys2Proof Sys2Proof.Machine Sys2Proof.Claims Sys2Proof.Safety

/-! ### Encoding (30_encoding.md). The opcode numbers and field positions are the spec's decisions D1 and D2 (log
entry 11); that unused bits are ignored is D7 (log entry 13). -/

/-- The words of table V11 of 95_test_vectors.md, and a few with ignored bits set, decode as the table says. -/
def Obligations.SpecWordsDecode : Prop :=
  decode 0x0000 = .br 0b000 0 ∧ decode 0x0FFF = .br 0b111 (-1) ∧ decode 0x1283 = .addReg .r1 .r2 .r3 ∧
  decode 0x1225 = .addImm .r1 .r0 5 ∧ decode 0x2205 = .ld .r1 5 ∧ decode 0x3002 = .st .r0 2 ∧
  decode 0x4802 = .jsr 2 ∧ decode 0x4080 = .jsrr .r2 ∧ decode 0x5020 = .andImm .r0 .r0 0 ∧
  decode 0x5283 = .andReg .r1 .r2 .r3 ∧ decode 0x62BF = .ldr .r1 .r2 (-1) ∧ decode 0x7183 = .str .r0 .r6 3 ∧
  decode 0x8000 = .rti ∧ decode 0x927F = .not .r1 .r1 ∧ decode 0xA004 = .ldi .r0 4 ∧ decode 0xB204 = .sti .r1 4 ∧
  decode 0xC1C0 = .jmp .r7 ∧ decode 0xCEFF = .jmp .r3 ∧ decode 0xD000 = .res ∧ decode 0xE002 = .lea .r0 2 ∧
  decode 0xF020 = .trapGetc ∧ decode 0xF021 = .trapOut ∧ decode 0xF022 = .trapPuts ∧ decode 0xF023 = .trapIn ∧
  decode 0xF024 = .trapPutsp ∧ decode 0xF025 = .trapHalt ∧ decode 0xFF25 = .trapHalt ∧ decode 0xF0FF = .trap 0xFF ∧
  decode 0x1018 = .addReg .r0 .r0 .r0

/-- Decoding the word of a well-formed instruction gives the instruction back, with every operand at every value. -/
def Obligations.DecodeEncodeAgree : Prop := ∀ i : Instr, i.wf = true → decode (encode i) = i

/-- A word decodes to an instruction exactly when that instruction is well formed and the word agrees with its encoding
on every bit that is not ignored (30_encoding.md, sections 1, 2 and 4; D1, D2, D7): the decoder is total, gives each word one
meaning, and the ignored bits "have no effect, whatever they hold". -/
def Obligations.DecodeExactlyUsedBits : Prop :=
  ∀ (w : Word) (i : Instr), decode w = i ↔ i.wf = true ∧ w &&& i.usedMask = encode i &&& i.usedMask

/-- A word belongs to the row its decoded instruction stands for ("a word w belongs to the row when w & mask = match"),
and, the generic row TRAP aside, whose six sub-cases are tried first, to no other row of the table (R92; D1, D2). -/
def Obligations.DecodeFollowsOpcodeTable : Prop :=
  (∀ w : Word, w &&& (decode w).rowMask = (decode w).rowMatch) ∧
  ∀ (w : Word) (i : Instr), (∀ v, i ≠ .trap v) → w &&& i.rowMask = i.rowMatch →
    (decode w).rowMask = i.rowMask ∧ (decode w).rowMatch = i.rowMatch

/-- Exactly the words 0x8000 to 0x8FFF and 0xD000 to 0xDFFF are illegal: executing one leaves `run` FAULTED, and executing
any other word leaves `run` RUNNING or, HALT alone, HALTED (30_encoding.md, section 4; the two numbers are D1, log entry
11, and the state FAULTED is D17, log entry 8). That a PUTS or PUTSP word answers a next state in every state is the
model's deduction (log entry 10), and that a GETC or IN word does with no byte pending is its hold (log entry 6). -/
def Obligations.IllegalWordsFault : Prop :=
  ∀ (w : Word) (s : State), s.run = .running →
    if (0x8000 ≤ w.toNat ∧ w.toNat ≤ 0x8FFF) ∨ (0xD000 ≤ w.toNat ∧ w.toNat ≤ 0xDFFF) then
      ∃ t, exec (decode w) s = .next t ∧ t.run = .faulted
    else ∃ t, exec (decode w) s = .next t ∧ t.run = if decode w = .trapHalt then .halted else .running

/-! ### The cycle (40_cycle.md) -/

/-- One step (40_cycle.md, section 1): while `run` is RUNNING it reads the cell at `pc`, adds one to `pc` modulo 65,536
and executes what the word decodes to; when `run` is HALTED or FAULTED there is no step, for which the model answers a
fault that names the rest (log entry 9). A core that holds inside an instruction is not at the beginning of a step (log
entry 6); see HoldWaitsForHost. -/
def Obligations.StepRunsDecodedInstruction : Prop :=
  (∀ (s u : State) (w : Word), s.run = .running → s.hold = none → memRead s.pc s = (w, u) →
    step s = exec (decode w) (u.setPc (BitVec.ofNat 16 ((s.pc.toNat + 1) % 65536)))) ∧
  (∀ s : State, s.run = .halted → step s = .fault .atRestHalted) ∧
  (∀ s : State, s.run = .faulted → step s = .fault .atRestFaulted)

/-- A step in any state whose fetch does not touch the keyboard: the word executed is the cell's, whatever it holds, and
the instruction starts from the state with `pc` one further and nothing else changed. -/
def Obligations.FetchOfPlainCell : Prop :=
  ∀ (s : State), s.run = .running → s.hold = none → s.pc ≠ 0xFE00 →
    step s = exec (decode (s.mem.read s.pc)) { s with pc := s.pc + 1 }

/-- A fetch from 0xFE00 polls, and the word executed is the status word: with a byte pending 0x8000, an RTI, which
faults; with none 0x0000, a BR never taken (40_cycle.md, section 1, the clause it marks as derived; D18). -/
def Obligations.FetchAtKeyboardStatus : Prop :=
  ∀ (s : State), s.run = .running → s.hold = none → s.pc = 0xFE00 →
    ∃ t, step s = .next t ∧ t.pc = 0xFE01 ∧ t.cond = s.cond ∧ RegsExcept [] s t ∧ OutputSame s t ∧
      t.hold = none ∧ t.params = s.params ∧
      match s.inq with
      | [] => t.run = .running ∧ t.inq = [] ∧ t.mem.read 0xFE00 = 0x0000 ∧ MemExcept [0xFE00] s t
      | c :: q => t.run = .faulted ∧ t.inq = q ∧ t.mem.read 0xFE00 = 0x8000 ∧ t.mem.read 0xFE02 = byteWord c ∧
          MemExcept [0xFE00, 0xFE02] s t

/-- `sext_N` for every N in 1 .. 16 (R114): the field itself when its high bit is 0, the field plus 65536 - 2^N when it is
1; so the field's two's-complement value is kept; and the identity when N = 16. -/
def Obligations.SignExtensionFormula : Prop :=
  (∀ (n : Nat), 1 ≤ n → n ≤ 16 → ∀ v : BitVec n,
    (sext v).toNat = (if v.getLsbD (n - 1) = false then v.toNat else v.toNat + (65536 - 2 ^ n)) ∧
    (sext v).toInt = v.toInt) ∧
  ∀ v : BitVec 16, sext v = v

/-- `setcc(v)` replaces the whole of `cond` by the condition of `v`, whatever it held, and writes nothing else
(40_cycle.md, section 3; the bits of `cond` are decision D3). -/
def Obligations.SetccClassifies : Prop :=
  ∀ (v : Word) (s : State), (setcc v s).cond = conditionOf v ∧ (setcc v s).pc = s.pc ∧
    RegsExcept [] s (setcc v s) ∧ OutsideSame s (setcc v s)

/-- Exactly seven instructions set the condition codes, and they set them from the word they have put in their
destination; every other instruction leaves `cond` alone, JSR, JSRR and the trap routines among them (40_cycle.md,
section 3; 90_conflicts.md C3; decisions D3, D9). -/
def Obligations.FlagSettersAreTheSeven : Prop :=
  ∀ (i : Instr) (s t : State), exec i s = .next t →
    match flagDest i with
    | some d => t.cond = conditionOf (t.getReg d)
    | none => t.cond = s.cond

/-- Who may write what (10_state.md, section 8, its last table, which it marks as derived): outside the listed writers
every register, `pc`, `run`, every cell, `INQ`, `OUT`, the hold and the parameters are unchanged by every instruction;
`INQ` only loses bytes at its front and `OUT` only gains bytes at its end. -/
def Obligations.WritersTable : Prop :=
  ∀ (i : Instr) (s t : State), i.wf = true → exec i s = .next t →
    RegsExcept (regsWritten i) s t ∧
    (writesPc i = false → t.pc = s.pc) ∧
    (t.run = s.run ∨ (i = .trapHalt ∧ t.run = .halted) ∨ (isReserved i ∧ t.run = .faulted)) ∧
    MemExcept (0xFE00 :: 0xFE02 :: cellsStored s i) s t ∧
    (readsMemory i = false → MemExcept (cellsStored s i) s t) ∧
    t.inq <:+ s.inq ∧ (readsMemory i = false → ¬ takesInput i → t.inq = s.inq) ∧
    s.out <+: t.out ∧ (¬ sendsOutput i → t.out = s.out ∧ t.flushed = s.flushed) ∧
    (¬ takesInput i → t.hold = s.hold) ∧ t.params = s.params

/-! ### Operate instructions (41_operate.md). Their encodings are in the statements on decoding. -/

/-- ADD, register form: the sum modulo 65,536, the flags from it, nothing else; DR may be a source. -/
def Obligations.AddRegisterResult : Prop :=
  ∀ (d a b : Reg) (s : State), ∃ t, exec (.addReg d a b) s = .next t ∧
    (t.getReg d).toNat = ((s.getReg a).toNat + (s.getReg b).toNat) % 65536 ∧ t.cond = conditionOf (t.getReg d) ∧
    RegsExcept [d] s t ∧ t.pc = s.pc ∧ OutsideSame s t

/-- ADD, immediate form: the signed value of imm5 is added, modulo 65,536. -/
def Obligations.AddImmediateResult : Prop :=
  ∀ (d a : Reg) (i : BitVec 5) (s : State), ∃ t, exec (.addImm d a i) s = .next t ∧
    ((t.getReg d).toNat : Int) = (((s.getReg a).toNat : Int) + i.toInt) % 65536 ∧ t.cond = conditionOf (t.getReg d) ∧
    RegsExcept [d] s t ∧ t.pc = s.pc ∧ OutsideSame s t

/-- AND, register form: bit by bit on all 16 bits. -/
def Obligations.AndRegisterResult : Prop :=
  ∀ (d a b : Reg) (s : State), ∃ t, exec (.andReg d a b) s = .next t ∧
    (∀ k, (t.getReg d).getLsbD k = ((s.getReg a).getLsbD k && (s.getReg b).getLsbD k)) ∧
    t.cond = conditionOf (t.getReg d) ∧ RegsExcept [d] s t ∧ t.pc = s.pc ∧ OutsideSame s t

/-- AND, immediate form: the mask is imm5 with its sign bit repeated, "the immediate is sign-extended before the AND". -/
def Obligations.AndImmediateResult : Prop :=
  ∀ (d a : Reg) (i : BitVec 5) (s : State), ∃ t, exec (.andImm d a i) s = .next t ∧
    (∀ k, k < 5 → (t.getReg d).getLsbD k = ((s.getReg a).getLsbD k && i.getLsbD k)) ∧
    (∀ k, 5 ≤ k → k < 16 → (t.getReg d).getLsbD k = ((s.getReg a).getLsbD k && i.getLsbD 4)) ∧
    t.cond = conditionOf (t.getReg d) ∧ RegsExcept [d] s t ∧ t.pc = s.pc ∧ OutsideSame s t

/-- NOT: 65535 minus the source. -/
def Obligations.NotResult : Prop :=
  ∀ (d a : Reg) (s : State), ∃ t, exec (.not d a) s = .next t ∧
    (t.getReg d).toNat = 65535 - (s.getReg a).toNat ∧ t.cond = conditionOf (t.getReg d) ∧
    RegsExcept [d] s t ∧ t.pc = s.pc ∧ OutsideSame s t

/-! ### Control transfer (42_control.md) -/

/-- BR: taken exactly when the mask and `cond` share a bit, to the incremented `pc` plus the signed offset modulo
65,536; so the empty mask is never taken, no mask is while `cond` is 0b000, and mask 111 is whenever a condition is set.
Nothing else changes. The pairing of mask bits with conditions is decision D3. -/
def Obligations.BrResult : Prop :=
  ∀ (m : BitVec 3) (o : BitVec 9) (s : State), ∃ t, exec (.br m o) s = .next t ∧
    ((t.pc.toNat : Int) = if (∃ k, k < 3 ∧ m.getLsbD k = true ∧ s.cond.getLsbD k = true)
      then ((s.pc.toNat : Int) + o.toInt) % 65536 else (s.pc.toNat : Int)) ∧
    (m = 0b000 → t.pc = s.pc) ∧ (s.cond = 0b000 → t.pc = s.pc) ∧
    (m = 0b111 → s.cond ≠ 0b000 → t.pc = s.pc + sext o) ∧
    t.cond = s.cond ∧ RegsExcept [] s t ∧ OutsideSame s t

/-- JMP, and RET when the register is r7: `pc` is the register; nothing else is written, `x[7]` included. -/
def Obligations.JmpResult : Prop :=
  ∀ (b : Reg) (s : State), ∃ t, exec (.jmp b) s = .next t ∧
    t.pc = s.getReg b ∧ t.cond = s.cond ∧ RegsExcept [] s t ∧ OutsideSame s t

/-- JSR: the incremented `pc` goes to `x[7]`, then `pc` moves by the signed offset modulo 65,536; the flags stay. -/
def Obligations.JsrResult : Prop :=
  ∀ (o : BitVec 11) (s : State), ∃ t, exec (.jsr o) s = .next t ∧
    t.getReg .r7 = s.pc ∧ (t.pc.toNat : Int) = ((s.pc.toNat : Int) + o.toInt) % 65536 ∧ t.cond = s.cond ∧
    RegsExcept [.r7] s t ∧ OutsideSame s t

/-- JSRR: the save comes first, so the target is the base register's content, but with BaseR = 7 the incremented `pc`
just saved: `JSRR R7` falls through. (The last clause rests on the order of the pseudocode, which 42_control.md, section
3 marks as derived.) -/
def Obligations.JsrrResult : Prop :=
  ∀ (b : Reg) (s : State), ∃ t, exec (.jsrr b) s = .next t ∧
    t.getReg .r7 = s.pc ∧ t.pc = (if b = .r7 then s.pc else s.getReg b) ∧ t.cond = s.cond ∧
    RegsExcept [.r7] s t ∧ OutsideSame s t

/-! ### Data movement (43_load_store.md). Addresses are sums modulo 65,536; a read of 0xFE00 polls first (`Reads`). -/

/-- LD: the cell at the incremented `pc` plus the signed offset goes to DR, the flags from it. -/
def Obligations.LdResult : Prop :=
  ∀ (d : Reg) (o : BitVec 9) (s : State), ∃ v t, Reads (s.pc + sext o) s v t ∧ exec (.ld d o) s = .next t ∧
    t.getReg d = v ∧ t.cond = conditionOf v ∧ RegsExcept [d] s t ∧ t.pc = s.pc ∧ OutputSame s t ∧ ModeSame s t

/-- LDI: two reads, either of which may poll; the flags reflect the final value only. -/
def Obligations.LdiResult : Prop :=
  ∀ (d : Reg) (o : BitVec 9) (s : State), ∃ p u v t, Reads (s.pc + sext o) s p u ∧ Reads p u v t ∧
    exec (.ldi d o) s = .next t ∧
    t.getReg d = v ∧ t.cond = conditionOf v ∧ RegsExcept [d] s t ∧ t.pc = s.pc ∧ OutputSame s t ∧ ModeSame s t

/-- LDR: the base is read before the destination is written, and is not modified. -/
def Obligations.LdrResult : Prop :=
  ∀ (d b : Reg) (o : BitVec 6) (s : State), ∃ v t, Reads (s.getReg b + sext o) s v t ∧
    exec (.ldr d b o) s = .next t ∧
    t.getReg d = v ∧ t.cond = conditionOf v ∧ RegsExcept [d] s t ∧ t.pc = s.pc ∧ OutputSame s t ∧ ModeSame s t

/-- LEA: the address itself, no access; "this machine's LEA sets the condition codes". -/
def Obligations.LeaResult : Prop :=
  ∀ (d : Reg) (o : BitVec 9) (s : State), ∃ t, exec (.lea d o) s = .next t ∧
    ((t.getReg d).toNat : Int) = ((s.pc.toNat : Int) + o.toInt) % 65536 ∧ t.cond = conditionOf (t.getReg d) ∧
    RegsExcept [d] s t ∧ t.pc = s.pc ∧ OutsideSame s t

/-- ST: the cell at the incremented `pc` plus the signed offset becomes the source register; every other cell, and
everything else, is unchanged, also when the cell is 0xFE00 or 0xFE02. -/
def Obligations.StResult : Prop :=
  ∀ (r : Reg) (o : BitVec 9) (s : State), ∃ t, exec (.st r o) s = .next t ∧
    t.mem.read (pcRel9 s o) = s.getReg r ∧ MemExcept [pcRel9 s o] s t ∧ pcRel9 s o = s.pc + sext o ∧
    RegsExcept [] s t ∧ t.pc = s.pc ∧ t.cond = s.cond ∧ InputSame s t ∧ OutputSame s t ∧ ModeSame s t

/-- STI: the pointer is read, with the poll when it is read at 0xFE00, then the cell it names becomes the source
register; every other cell is as the read left it. -/
def Obligations.StiResult : Prop :=
  ∀ (r : Reg) (o : BitVec 9) (s : State), ∃ p u t, Reads (s.pc + sext o) s p u ∧ exec (.sti r o) s = .next t ∧
    p = (memRead (pcRel9 s o) s).1 ∧ t.mem.read p = s.getReg r ∧ MemExcept [p] u t ∧ t.inq = u.inq ∧
    RegsExcept [] s t ∧ t.pc = s.pc ∧ t.cond = s.cond ∧ OutputSame s t ∧ ModeSame s t

/-- STR: the cell at the base plus the signed offset becomes the source register, which may be the base itself. -/
def Obligations.StrResult : Prop :=
  ∀ (r b : Reg) (o : BitVec 6) (s : State), ∃ t, exec (.str r b o) s = .next t ∧
    t.mem.read (baseOff6 s b o) = s.getReg r ∧ MemExcept [baseOff6 s b o] s t ∧ baseOff6 s b o = s.getReg b + sext o ∧
    RegsExcept [] s t ∧ t.pc = s.pc ∧ t.cond = s.cond ∧ InputSame s t ∧ OutputSame s t ∧ ModeSame s t

/-! ### TRAP and its routines (44_trap.md) -/

/-- GETC with a byte pending: the oldest byte goes to `x[0]`, its high byte zero (D10), and leaves the queue; the flags
stay (D9) and nothing is written to the output. With none pending: it holds, and nothing but the hold changes (D11; that
the hold lies inside the instruction is log entry 6). -/
def Obligations.GetcResult : Prop :=
  (∀ (s : State) (c : Byte) (q : List Byte), s.inq = c :: q → ∃ t, exec .trapGetc s = .next t ∧
    t.getReg .r0 = byteWord c ∧ t.inq = q ∧ RegsExcept [.r0] s t ∧ t.pc = s.pc ∧ t.cond = s.cond ∧
    MemExcept [] s t ∧ OutputSame s t ∧ t.run = s.run ∧ t.hold = none ∧ t.params = s.params) ∧
  (∀ s : State, s.inq = [] → ∃ t, exec .trapGetc s = .next t ∧
    t.hold = some .inGetc ∧ RegsExcept [] s t ∧ t.pc = s.pc ∧ t.cond = s.cond ∧
    MemExcept [] s t ∧ InputSame s t ∧ OutputSame s t ∧ t.run = s.run ∧ t.params = s.params)

/-- OUT, any TRAP word with code 0x21, whatever bits 11 to 8 hold (D7; log entry 13): the low byte of `x[0]` is appended to the output and flushed at once; the
high byte is ignored; registers, memory, `cond` and all the rest are unchanged. -/
def Obligations.OutResult : Prop :=
  (∀ w : Word, w.toNat / 0x1000 = 0xF → w.toNat % 0x100 = 0x21 → decode w = .trapOut) ∧
  ∀ s : State, ∃ t, exec .trapOut s = .next t ∧
    t.out = s.out ++ [BitVec.ofNat 8 ((s.getReg .r0).toNat % 256)] ∧ t.flushed = t.out.length ∧
    RegsExcept [] s t ∧ t.pc = s.pc ∧ t.cond = s.cond ∧ MemExcept [] s t ∧ InputSame s t ∧ ModeSame s t

/-- PUTS in every state, a string over 0xFE00 or past 0xFFFF included: the loop of the rule runs to its end from `x[0]`,
the bytes it sends are appended, then one flush; no register, not `cond`, and no cell but by the poll, is changed
(D14). In this model the loop always ends (log entry 10). -/
def Obligations.PutsResult : Prop :=
  ∀ s : State, ∃ bs u t, StringRun putsSends (s.getReg .r0) s bs u ∧ exec .trapPuts s = .next t ∧
    t.out = s.out ++ bs ∧ t.flushed = t.out.length ∧ t.inq = u.inq ∧ MemExcept [] u t ∧
    RegsExcept [] s t ∧ t.pc = s.pc ∧ t.cond = s.cond ∧ ModeSame s t

/-- PUTS on a string that stays clear of 0xFE00: exactly the low bytes of its cells, up to and without the zero cell, a
cell with a zero low byte included; memory and input untouched. -/
def Obligations.PutsSendsStringCells : Prop :=
  ∀ (s : State) (n : Nat),
    (∀ k, k ≤ n → s.getReg .r0 + BitVec.ofNat 16 k ≠ 0xFE00) →
    (∀ k, k < n → s.mem.read (s.getReg .r0 + BitVec.ofNat 16 k) ≠ 0x0000) →
    s.mem.read (s.getReg .r0 + BitVec.ofNat 16 n) = 0x0000 →
    ∃ t, exec .trapPuts s = .next t ∧
      t.out = s.out ++ (List.range n).map
        (fun k => BitVec.ofNat 8 ((s.mem.read (s.getReg .r0 + BitVec.ofNat 16 k)).toNat % 256)) ∧
      t.flushed = t.out.length ∧ MemExcept [] s t ∧ InputSame s t ∧
      RegsExcept [] s t ∧ t.pc = s.pc ∧ t.cond = s.cond ∧ ModeSame s t

/-- IN with a byte pending: the prompt and then the byte are appended to the output, one flush (D15), and `x[0]` gets the
byte, its high byte zero (D10), the flags staying (D9). With none pending: the prompt is appended, not yet flushed, and
it holds (D11; log entry 6). -/
def Obligations.InResult : Prop :=
  (∀ (s : State) (c : Byte) (q : List Byte), s.inq = c :: q → ∃ t, exec .trapIn s = .next t ∧
    t.getReg .r0 = byteWord c ∧ t.inq = q ∧ t.out = s.out ++ s.params.inPrompt ++ [c] ∧ t.flushed = t.out.length ∧
    RegsExcept [.r0] s t ∧ t.pc = s.pc ∧ t.cond = s.cond ∧ MemExcept [] s t ∧
    t.run = s.run ∧ t.hold = none ∧ t.params = s.params) ∧
  (∀ s : State, s.inq = [] → ∃ t, exec .trapIn s = .next t ∧
    t.hold = some .inIn ∧ t.out = s.out ++ s.params.inPrompt ∧ t.flushed = s.flushed ∧
    RegsExcept [] s t ∧ t.pc = s.pc ∧ t.cond = s.cond ∧ MemExcept [] s t ∧ InputSame s t ∧
    t.run = s.run ∧ t.params = s.params)

/-- PUTSP in every state: as PUTS, each non-zero cell sending its low byte, always, and then its high byte unless that is
zero (D14; log entry 10). -/
def Obligations.PutspResult : Prop :=
  ∀ s : State, ∃ bs u t, StringRun putspSends (s.getReg .r0) s bs u ∧ exec .trapPutsp s = .next t ∧
    t.out = s.out ++ bs ∧ t.flushed = t.out.length ∧ t.inq = u.inq ∧ MemExcept [] u t ∧
    RegsExcept [] s t ∧ t.pc = s.pc ∧ t.cond = s.cond ∧ ModeSame s t

/-- HALT, any TRAP word with code 0x25, whatever bits 11 to 8 hold (D7; log entry 13): the notice is appended and flushed
and `run` is HALTED; nothing else is written, and no further instruction is fetched, which the model says as the fault
`atRestHalted` of the next step (log entry 9). -/
def Obligations.HaltResult : Prop :=
  (∀ w : Word, w.toNat / 0x1000 = 0xF → w.toNat % 0x100 = 0x25 → decode w = .trapHalt) ∧
  ∀ s : State, ∃ t, exec .trapHalt s = .next t ∧
    t.out = s.out ++ s.params.haltNotice ∧ t.flushed = t.out.length ∧ t.run = .halted ∧
    RegsExcept [] s t ∧ t.pc = s.pc ∧ t.cond = s.cond ∧ MemExcept [] s t ∧ InputSame s t ∧
    t.hold = s.hold ∧ t.params = s.params ∧ step t = .fault .atRestHalted

/-- The undefined trap codes (R159), 0x00 .. 0x1F and 0x26 .. 0xFF, whatever bits 11 to 8 hold: the instruction changes
nothing; and a step on such a word in a plain cell changes `pc` alone, which it advances by one. -/
def Obligations.UndefinedTrapCodeDoesNothing : Prop :=
  (∀ (w : Word) (s : State), w.toNat / 0x1000 = 0xF → (w.toNat % 0x100 < 0x20 ∨ 0x26 ≤ w.toNat % 0x100) →
    decode w = .trap (BitVec.ofNat 8 (w.toNat % 0x100)) ∧ exec (decode w) s = .next s) ∧
  ∀ (s : State), s.run = .running → s.hold = none → s.pc ≠ 0xFE00 →
    (s.mem.read s.pc).toNat / 0x1000 = 0xF →
    ((s.mem.read s.pc).toNat % 0x100 < 0x20 ∨ 0x26 ≤ (s.mem.read s.pc).toNat % 0x100) →
    step s = .next { s with pc := s.pc + 1 }

/-- The generic row's meaning is the dispatch of R150 on every code: on the six codes of the routines it is the routine
(a term no word decodes to; log entry 25), on every other code nothing. -/
def Obligations.TrapDispatchesOnCode : Prop :=
  ∀ (v : BitVec 8) (s : State), exec (.trap v) s = match v.toNat with
    | 0x20 => exec .trapGetc s
    | 0x21 => exec .trapOut s
    | 0x22 => exec .trapPuts s
    | 0x23 => exec .trapIn s
    | 0x24 => exec .trapPutsp s
    | 0x25 => exec .trapHalt s
    | _ => .next s

/-- No TRAP writes `cond`, `pc`, `x[7]` or any register but `x[0]`, nor, but for the poll of a string over 0xFE00, any
memory (44_trap.md, sections 1 and 2; its last table is marked as derived; D8, D9). -/
def Obligations.TrapKeepsLinkAndFlags : Prop :=
  ∀ (i : Instr) (s t : State), isTrap i → exec i s = .next t →
    t.cond = s.cond ∧ t.pc = s.pc ∧ t.getReg .r7 = s.getReg .r7 ∧ RegsExcept [.r0] s t ∧
    MemExcept [0xFE00, 0xFE02] s t

/-- The hold: while no byte is pending a holding core makes no progress and changes no state; when the host has appended
one, GETC and IN go on from their wait to their end (44_trap.md, section 1; D11; log entry 6). -/
def Obligations.HoldWaitsForHost : Prop :=
  (∀ s : State, s.run = .running → s.hold ≠ none → s.inq = [] → step s = .next s) ∧
  (∀ (s : State) (c : Byte) (q : List Byte), s.run = .running → s.hold = some .inGetc → s.inq = c :: q →
    ∃ t, step s = .next t ∧ t.getReg .r0 = byteWord c ∧ t.inq = q ∧ RegsExcept [.r0] s t ∧ t.pc = s.pc ∧
      t.cond = s.cond ∧ MemExcept [] s t ∧ OutputSame s t ∧ t.run = .running ∧ t.hold = none ∧ t.params = s.params) ∧
  (∀ (s : State) (c : Byte) (q : List Byte), s.run = .running → s.hold = some .inIn → s.inq = c :: q →
    ∃ t, step s = .next t ∧ t.getReg .r0 = byteWord c ∧ t.inq = q ∧ RegsExcept [.r0] s t ∧ t.pc = s.pc ∧
      t.cond = s.cond ∧ MemExcept [] s t ∧ t.out = s.out ++ [c] ∧ t.flushed = t.out.length ∧ t.run = .running ∧
      t.hold = none ∧ t.params = s.params)

/-! ### The reserved opcodes and the fault (45_reserved.md, 60_exceptions.md) -/

/-- RTI and RES: `run` is FAULTED and nothing else is written (decision D17; log entry 8), and there is no further step,
which the model says as the fault `atRestFaulted` (log entry 9). -/
def Obligations.ReservedOpcodesFault : Prop :=
  ∀ (i : Instr) (s : State), isReserved i → ∃ t, exec i s = .next t ∧ t.run = .faulted ∧
    RegsExcept [] s t ∧ t.pc = s.pc ∧ t.cond = s.cond ∧ MemExcept [] s t ∧ InputSame s t ∧ OutputSame s t ∧
    t.hold = s.hold ∧ t.params = s.params ∧ step t = .fault .atRestFaulted

/-- The fault is precise and final: a step that faults has done nothing but the fetch and its increment, on a word of a
reserved opcode; and no schedule of host input and core steps takes the machine out of FAULTED, or out of HALTED
(60_exceptions.md, section 1; 10_state.md, section 4; decision D17, log entry 8; the schedules are log entry 7). -/
def Obligations.FaultIsPreciseAndFinal : Prop :=
  (∀ s t : State, s.run = .running → step s = .next t → t.run = .faulted →
    s.hold = none ∧ isReserved (decode (fetch s).1) ∧ t = { (fetch s).2 with run := .faulted }) ∧
  (∀ (es : List Event) (s t : State), s.run ≠ .running → runSchedule es s = .next t → t.run = s.run)

/-- Every instruction, well formed or not, in every state answers a next state: no step of a running core stops, and
ordinary data ends no run ("all fetch/decode/execute steps are expected to succeed"). PUTS and PUTSP are in it (log
entry 10), and GETC and IN, which may wait (log entry 6). -/
def Obligations.EveryInstructionAnswersNext : Prop :=
  (∀ (i : Instr) (s : State), ∃ t, exec i s = .next t) ∧
  ∀ s : State, s.run = .running → ∃ t, step s = .next t

/-! ### Registers and memory (10_state.md, 20_memory.md) -/

/-- The register file (R20): a 3-bit field value `i` selects `x[i]`, each of the eight values the register of that
number, and the encoder writes that number back; a write replaces all 16 bits of the register it names and changes
nothing else; every register is read and written alike, `x[0]` included. -/
def Obligations.RegisterWriteIsPrivate : Prop :=
  (∀ b : BitVec 3, Reg.ofBits b = match b.toNat with
    | 0 => .r0 | 1 => .r1 | 2 => .r2 | 3 => .r3 | 4 => .r4 | 5 => .r5 | 6 => .r6 | _ => .r7) ∧
  (∀ b : BitVec 3, (Reg.ofBits b).bits = b) ∧ (∀ r : Reg, Reg.ofBits r.bits = r) ∧
  (∀ s : State, s.getReg .r0 = s.regs.r0 ∧ s.getReg .r1 = s.regs.r1 ∧ s.getReg .r2 = s.regs.r2 ∧
    s.getReg .r3 = s.regs.r3 ∧ s.getReg .r4 = s.regs.r4 ∧ s.getReg .r5 = s.regs.r5 ∧ s.getReg .r6 = s.regs.r6 ∧
    s.getReg .r7 = s.regs.r7) ∧
  ∀ (s : State) (r : Reg) (v : Word), (s.setReg r v).getReg r = v ∧ RegsExcept [r] s (s.setReg r v) ∧
    (s.setReg r v).pc = s.pc ∧ (s.setReg r v).cond = s.cond ∧ OutsideSame s (s.setReg r v)

/-- `MemWrite` (R54): an unconditional store at every address, with no side effect beyond the store itself. -/
def Obligations.MemWriteStores : Prop :=
  ∀ (a v : Word) (s : State), (memWrite a v s).mem.read a = v ∧ MemExcept [a] s (memWrite a v s) ∧
    RegsExcept [] s (memWrite a v s) ∧ (memWrite a v s).pc = s.pc ∧ (memWrite a v s).cond = s.cond ∧
    InputSame s (memWrite a v s) ∧ OutputSame s (memWrite a v s) ∧ ModeSame s (memWrite a v s)

/-- `MemRead` meets its description with the keyboard poll, at every address, and changes neither registers, `pc`,
`cond`, output nor execution state (20_memory.md, section 1; decisions D12, D13). -/
def Obligations.MemReadPolls : Prop :=
  ∀ (a : Word) (s : State), Reads a s (memRead a s).1 (memRead a s).2 ∧ RegsExcept [] s (memRead a s).2 ∧
    (memRead a s).2.pc = s.pc ∧ (memRead a s).2.cond = s.cond ∧ OutputSame s (memRead a s).2 ∧
    ModeSame s (memRead a s).2

/-- No program can read back through `MemRead` what it stored at 0xFE00, while a value stored at 0xFE02 stays until a poll
with input pending overwrites it (20_memory.md, section 1, which marks it as derived). -/
def Obligations.KeyboardCellsReadBack : Prop :=
  (∀ (v : Word) (s : State), (memRead 0xFE00 (memWrite 0xFE00 v s)).1 = if s.inq = [] then 0x0000 else 0x8000) ∧
  (∀ (v : Word) (s : State), memRead 0xFE02 (memWrite 0xFE02 v s) = (v, memWrite 0xFE02 v s)) ∧
  (∀ (v : Word) (s : State),
    (memRead 0xFE02 (memRead 0xFE00 (memWrite 0xFE02 v s)).2).1 =
      match s.inq with
      | [] => v
      | c :: _ => byteWord c)

/-- Instruction fetch sees every earlier store (20_memory.md, section 5): after ST, STI or STR has put a word in a cell, a
step that fetches that cell runs that word, the very next step when it is the cell `pc` points to. Not at 0xFE00, where
the fetch polls (D18; see FetchAtKeyboardStatus). The pointer of an STI may be read at 0xFE00. -/
def Obligations.FetchSeesEarlierStore : Prop :=
  ∀ (i : Instr) (r : Reg) (a : Word) (s : State), storeSource i = some r → cellsStored s i = [a] → a ≠ 0xFE00 →
    s.run = .running → s.hold = none →
    ∃ t, exec i s = .next t ∧ t.pc = s.pc ∧
      step { t with pc := a } = exec (decode (s.getReg r)) { t with pc := a + 1 } ∧
      (a = s.pc → step t = exec (decode (s.getReg r)) { t with pc := s.pc + 1 })

/-! ### Reset and loading (10_state.md, 70_reset_and_hazards.md) -/

/-- Reset, for every value of the open parameters, every drawing of the cells and every input: every register zero, `pc`
at `PC_START`, `cond` 0b000 (D4), RUNNING, every cell the word of `MEM_FILL` or, when that is "any", as drawn, which may
be any function of the address; the input as supplied, the output empty, no hold; and `State.reset` is that with the
spec's defaults 0x3000 and 0x0000 (D5, D6; log entries 2, 3, 4) and no input (log entry 5). -/
def Obligations.ResetValues : Prop :=
  (∀ (p : Config.Params) (drawn : Word → Word) (q : List Byte) (s : State), s = powerOn p drawn q →
    (∀ r, s.getReg r = 0x0000) ∧ s.pc = p.pcStart ∧ s.cond = 0b000 ∧ s.run = .running ∧
    (∀ v, p.memFill = .word v → ∀ a, s.mem.read a = v) ∧ (p.memFill = .any → ∀ a, s.mem.read a = drawn a) ∧
    s.inq = q ∧ s.out = [] ∧ s.flushed = 0 ∧ s.hold = none ∧ s.params = p) ∧
  (∀ drawn : Word → Word, State.reset = powerOn defaultParams drawn []) ∧
  State.reset.pc = 0x3000 ∧ ∀ a, State.reset.mem.read a = 0x0000

/-- An image that fits is placed at its origin word by word, and loading sets nothing else (70_reset_and_hazards.md,
section 2). That an image past 0xFFFF is refused is the model's choice (log entry 19). -/
def Obligations.ImageLoadsAtOrigin : Prop :=
  ∀ (i : Image) (s : State), i.origin.toNat + i.words.length ≤ 65536 → ∃ t, hostLoadImage i s = some t ∧
    (∀ k (h : k < i.words.length), t.mem.read (i.origin + BitVec.ofNat 16 k) = i.words[k]) ∧
    (∀ a, (∀ k, k < i.words.length → a ≠ i.origin + BitVec.ofNat 16 k) → t.mem.read a = s.mem.read a) ∧
    RegsExcept [] s t ∧ t.pc = s.pc ∧ t.cond = s.cond ∧ InputSame s t ∧ OutputSame s t ∧ ModeSame s t

/-- An image file is read big-endian: the first two bytes are the origin, and each further pair a word, the first byte
of a pair bits 15 to 8 (70_reset_and_hazards.md, section 2). -/
def Obligations.ImageFileIsBigEndian : Prop :=
  ∀ i : Image, parseImage ((i.origin :: i.words).flatMap
    (fun w => [BitVec.ofNat 8 (w.toNat / 256), BitVec.ofNat 8 (w.toNat % 256)])) = some i

/-! ### Invariants and whole-machine rules -/

/-- Every step keeps the invariant: memory canonical, `cond` one-hot or 0b000, output delivered at every instruction
boundary, a core at rest not inside an instruction. -/
def Obligations.StepKeepsInvariant : Prop := ∀ s t : State, Inv s → step s = .next t → Inv t

/-- The invariant holds after reset, for every value of the open parameters, every drawing of the cells no image wrote
and every input. -/
def Obligations.ResetMeetsInvariant : Prop :=
  Inv State.reset ∧ ∀ (p : Config.Params) (drawn : Word → Word) (q : List Byte), Inv (powerOn p drawn q)

/-- The invariant is kept along every schedule of core steps and host input. -/
def Obligations.ScheduleKeepsInvariant : Prop :=
  ∀ (es : List Event) (s t : State), Inv s → runSchedule es s = .next t → Inv t

/-- Once one condition is set, exactly one is set for the rest of the run, under every schedule; and after a flag-setting
instruction one is (10_state.md, section 3; 90_conflicts.md C1; decisions D3, D9). -/
def Obligations.ConditionStaysOneHot : Prop :=
  (∀ (es : List Event) (s t : State), OneHot s.cond → runSchedule es s = .next t → OneHot t.cond) ∧
  ∀ (i : Instr) (s t : State), flagDest i ≠ none → exec i s = .next t → OneHot t.cond

/-- From a state whose output is delivered but for the prompt of a waiting IN, every step leaves everything written
delivered when it ends at an instruction boundary, and the output only grows (10_state.md, section 6, which marks the
first as derived; D15, D20). StepKeepsInvariant keeps the premise. -/
def Obligations.OutputDeliveredAtBoundaries : Prop :=
  ∀ s t : State, OutputLegal s → step s = .next t →
    s.out <+: t.out ∧ (t.hold = none → hostDelivered t = t.out)

/-- The core takes input only from the front of the queue and adds none (10_state.md, section 6). -/
def Obligations.InputTakenFromFront : Prop := ∀ s t : State, step s = .next t → t.inq <:+ s.inq

/-- A program cannot observe the output: two machines that differ only in what they have written so far make the same
step, up to what they have written (10_state.md, section 6). -/
def Obligations.OutputIsUnobservable : Prop :=
  ∀ s t : State, SameButOutput s t →
    (∀ s', step s = .next s' → ∃ t', step t = .next t' ∧ SameButOutput s' t') ∧
    (∀ f, step s = .fault f → step t = .fault f) ∧ (∀ r, step s = .refused r → step t = .refused r)

/-- The core does not know when a byte comes: a byte appended before a step that leaves some input unread, or after it,
gives the same state (60_exceptions.md, section 6; decision D29). -/
def Obligations.InputArrivalCommutes : Prop :=
  ∀ (s t : State) (b : Byte), step s = .next t → t.inq ≠ [] → step (hostAppend b s) = .next (hostAppend b t)

/-- A GETC or an IN that has to wait ends as it would have ended with the byte there from the start (44_trap.md, section
1: "no state changes before the byte is taken, except that IN emits its prompt before it waits"; log entry 6). -/
def Obligations.LateInputGivesSameResult : Prop :=
  ∀ (s : State) (b : Byte), s.run = .running → s.hold = none → s.inq = [] → takesInput (decode (fetch s).1) →
    runSchedule [.core, .input b, .core] s = runSchedule [.input b, .core] s
end

