-- ==== Sys2Proof/Laws/Memory.lean ====
section
/-! SUPPORT. The laws of memory as stored: a read after a write to the same cell gives the value written, a write leaves
every other cell alone (in every list, canonical or not), and every operation keeps the canonical form. -/

namespace Sys2Proof.Machine

/-! ### Read after write -/

theorem Memory.lookup_remove (m : Memory) (a b : Nat) :
    (m.remove b).lookup a = if a = b then Memory.unlisted else m.lookup a := by
  induction m with
  | nil => simp [Memory.remove, Memory.lookup]
  | cons p rest ih =>
    obtain ⟨c, u⟩ := p
    by_cases hc : c = b
    · subst hc
      simp only [Memory.remove, if_true, ih, Memory.lookup]
      by_cases ha : a = c <;> simp [ha]
    · by_cases ha : a = c
      · subst ha; simp [Memory.remove, Memory.lookup, hc]
      · simp [Memory.remove, Memory.lookup, hc, ha, ih]

theorem Memory.lookup_insert (m : Memory) (a b : Nat) (v : Word) (h : ∀ p ∈ m, p.1 ≠ b) :
    (m.insert b v).lookup a = if a = b then v else m.lookup a := by
  induction m with
  | nil => simp [Memory.insert, Memory.lookup]
  | cons p rest ih =>
    obtain ⟨c, u⟩ := p
    have hcb : c ≠ b := h (c, u) (by simp)
    have ih' := ih (fun p hp => h p (by simp [hp]))
    by_cases hlt : b < c
    · simp [Memory.insert, hlt, Memory.lookup]
    · by_cases ha : a = c
      · subst ha; simp [Memory.insert, hlt, Memory.lookup, hcb]
      · simp [Memory.insert, hlt, Memory.lookup, ha, ih']

theorem Memory.mem_remove {m : Memory} {b : Nat} {p : Nat × Word} :
    p ∈ m.remove b ↔ p ∈ m ∧ p.1 ≠ b := by
  induction m with
  | nil => simp [Memory.remove]
  | cons q rest ih =>
    obtain ⟨c, u⟩ := q
    by_cases hc : c = b
    · simp only [Memory.remove, hc, if_true, ih, List.mem_cons]
      constructor
      · rintro ⟨h, h'⟩; exact ⟨.inr h, h'⟩
      · rintro ⟨rfl | h, h'⟩
        · exact absurd rfl h'
        · exact ⟨h, h'⟩
    · simp only [Memory.remove, hc, if_false, ih, List.mem_cons]
      constructor
      · rintro (rfl | ⟨h, h'⟩)
        · exact ⟨.inl rfl, hc⟩
        · exact ⟨.inr h, h'⟩
      · rintro ⟨rfl | h, h'⟩
        · exact .inl rfl
        · exact .inr ⟨h, h'⟩

/-- What a cell reads after a write (20_memory.md R54, R64). -/
theorem Memory.read_write (m : Memory) (a b v : Word) :
    (m.write b v).read a = if a = b then v else m.read a := by
  have inj : a.toNat = b.toNat ↔ a = b := ⟨BitVec.eq_of_toNat_eq, congrArg _⟩
  by_cases hv : v = Memory.unlisted
  · subst hv
    simp only [Memory.write, Memory.read, if_true, Memory.lookup_remove, inj]
  · simp only [Memory.write, Memory.read, hv, if_false]
    rw [Memory.lookup_insert _ _ _ _ (fun p hp => (Memory.mem_remove.1 hp).2), Memory.lookup_remove]
    simp only [inj]
    split <;> rfl

@[simp] theorem Memory.read_write_self (m : Memory) (a v : Word) : (m.write a v).read a = v := by
  rw [Memory.read_write, if_pos rfl]

@[simp] theorem Memory.read_write_ne (m : Memory) {a b : Word} (v : Word) (h : a ≠ b) :
    (m.write b v).read a = m.read a := by
  rw [Memory.read_write, if_neg h]

/-! ### Memory from a function -/

theorem Memory.lookup_cellsFrom (f : Word → Word) (n a b : Nat) :
    (Memory.cellsFrom f n a).lookup b =
      if a ≤ b ∧ b < a + n then f (BitVec.ofNat 16 b) else Memory.unlisted := by
  induction n generalizing a with
  | zero => rw [if_neg (by omega)]; rfl
  | succ n ih =>
    by_cases hb : b = a
    · subst hb
      have later : (Memory.cellsFrom f n (b + 1)).lookup b = Memory.unlisted := by rw [ih, if_neg (by omega)]
      rw [if_pos (by omega)]
      by_cases hu : f (BitVec.ofNat 16 b) = Memory.unlisted <;> simp [Memory.cellsFrom, Memory.lookup, hu, later]
    · have rest : (Memory.cellsFrom f (n + 1) a).lookup b = (Memory.cellsFrom f n (a + 1)).lookup b := by
        by_cases hu : f (BitVec.ofNat 16 a) = Memory.unlisted <;> simp [Memory.cellsFrom, Memory.lookup, hu, hb]
      rw [rest, ih]
      exact if_congr (by omega) rfl rfl

/-- A memory made from a function reads as the function, at every address. -/
theorem Memory.read_ofCells (f : Word → Word) (a : Word) : (Memory.ofCells f).read a = f a := by
  have h := Memory.lookup_cellsFrom f 65536 0 a.toNat
  rw [if_pos ⟨Nat.zero_le _, by omega⟩, BitVec.ofNat_toNat, BitVec.setWidth_eq] at h
  exact h

theorem Memory.cellsFrom_unlisted (n a : Nat) : Memory.cellsFrom (fun _ => Memory.unlisted) n a = [] := by
  induction n generalizing a with
  | zero => rfl
  | succ n ih => rw [Memory.cellsFrom, if_pos rfl, ih]

/-- The memory of a function that is everywhere what an unlisted address reads as lists nothing. -/
theorem Memory.ofCells_unlisted : Memory.ofCells (fun _ => Memory.unlisted) = [] :=
  Memory.cellsFrom_unlisted 65536 0

/-! ### The canonical form -/

theorem Memory.wf_nil : Memory.wf [] := by simp [Memory.wf]

theorem Memory.wf_remove {m : Memory} (a : Nat) (h : m.wf) : (m.remove a).wf := by
  refine ⟨?_, fun p hp => h.2 p (Memory.mem_remove.1 hp).1⟩
  have hpw := h.1
  clear h
  induction m with
  | nil => simp [Memory.remove]
  | cons q rest ih =>
    obtain ⟨c, u⟩ := q
    rw [List.pairwise_cons] at hpw
    by_cases hc : c = a
    · simpa [Memory.remove, hc] using ih hpw.2
    · simp only [Memory.remove, hc, if_false, List.pairwise_cons]
      exact ⟨fun p hp => hpw.1 p (Memory.mem_remove.1 hp).1, ih hpw.2⟩

theorem Memory.mem_insert {m : Memory} {a : Nat} {v : Word} {p : Nat × Word} :
    p ∈ m.insert a v ↔ p = (a, v) ∨ p ∈ m := by
  induction m with
  | nil => simp [Memory.insert]
  | cons q rest ih =>
    obtain ⟨c, u⟩ := q
    by_cases hlt : a < c
    · simp [Memory.insert, hlt]
    · simp only [Memory.insert, hlt, if_false, List.mem_cons, ih]
      tauto

theorem Memory.pairwise_insert {m : Memory} {a : Nat} {v : Word} (h : m.Pairwise (fun p q => p.1 < q.1))
    (hne : ∀ p ∈ m, p.1 ≠ a) : (m.insert a v).Pairwise (fun p q => p.1 < q.1) := by
  induction m with
  | nil => simp [Memory.insert]
  | cons q rest ih =>
    obtain ⟨c, u⟩ := q
    have hca : c ≠ a := hne (c, u) (by simp)
    have hc := List.pairwise_cons.1 h
    by_cases hlt : a < c
    · simp only [Memory.insert, hlt, if_true, List.pairwise_cons]
      refine ⟨fun p hp => ?_, hc⟩
      rcases List.mem_cons.1 hp with rfl | hp
      · exact hlt
      · exact hlt.trans (hc.1 p hp)
    · simp only [Memory.insert, hlt, if_false, List.pairwise_cons]
      refine ⟨fun p hp => ?_, ih hc.2 (fun p hp => hne p (by simp [hp]))⟩
      rcases Memory.mem_insert.1 hp with rfl | hp
      · show c < a; omega
      · exact hc.1 p hp

theorem Memory.mem_cellsFrom {f : Word → Word} {n a : Nat} {p : Nat × Word} (h : p ∈ Memory.cellsFrom f n a) :
    a ≤ p.1 ∧ p.1 < a + n ∧ p.2 ≠ Memory.unlisted := by
  induction n generalizing a with
  | zero => simp [Memory.cellsFrom] at h
  | succ n ih =>
    rw [Memory.cellsFrom] at h
    split at h
    · have := ih h
      exact ⟨by omega, by omega, this.2.2⟩
    · rcases List.mem_cons.1 h with rfl | h
      · exact ⟨Nat.le_refl _, by omega, ‹_›⟩
      · have := ih h
        exact ⟨by omega, by omega, this.2.2⟩

theorem Memory.wf_cellsFrom (f : Word → Word) {n a : Nat} (hn : a + n ≤ 65536) : (Memory.cellsFrom f n a).wf := by
  refine ⟨?_, fun p hp => ⟨(Memory.mem_cellsFrom hp).2.1.trans_le hn, (Memory.mem_cellsFrom hp).2.2⟩⟩
  clear hn
  induction n generalizing a with
  | zero => exact List.Pairwise.nil
  | succ n ih =>
    rw [Memory.cellsFrom]
    split
    · exact ih
    · exact List.pairwise_cons.2 ⟨fun p hp => (Memory.mem_cellsFrom hp).1, ih⟩

/-- A memory made from a function has the canonical form. -/
theorem Memory.wf_ofCells (f : Word → Word) : (Memory.ofCells f).wf :=
  Memory.wf_cellsFrom f (Nat.le_refl 65536)

/-- A write keeps the canonical form. -/
theorem Memory.wf_write {m : Memory} (a v : Word) (h : m.wf) : (m.write a v).wf := by
  have hr := Memory.wf_remove a.toNat h
  by_cases hv : v = Memory.unlisted
  · simpa only [Memory.write, hv, if_true] using hr
  · simp only [Memory.write, hv, if_false]
    refine ⟨Memory.pairwise_insert hr.1 (fun p hp => (Memory.mem_remove.1 hp).2), fun p hp => ?_⟩
    rcases Memory.mem_insert.1 hp with rfl | hp
    · exact ⟨a.isLt, hv⟩
    · exact hr.2 p hp

/-- Canonical memories that read alike are equal data. -/
theorem Memory.ext_read {m n : Memory} (hm : m.wf) (hn : n.wf) (h : ∀ a, m.read a = n.read a) : m = n := by
  induction m generalizing n with
  | nil =>
    cases n with
    | nil => rfl
    | cons q rest =>
      have hq := hn.2 q (by simp)
      have := h (BitVec.ofNat 16 q.1)
      simp [Memory.read, Memory.lookup, Nat.mod_eq_of_lt hq.1] at this
      exact absurd this.symm hq.2
  | cons p rest ih =>
    obtain ⟨a, v⟩ := p
    have hp := hm.2 (a, v) (by simp)
    have hml := List.pairwise_cons.1 hm.1
    have below : ∀ (l : Memory) (b : Nat), (∀ q ∈ l, b < q.1) → l.lookup b = Memory.unlisted := by
      intro l b hl
      induction l with
      | nil => rfl
      | cons q r ihl =>
        have : b ≠ q.1 := Nat.ne_of_lt (hl q (by simp))
        simp only [Memory.lookup, this, if_false]
        exact ihl (fun q hq => hl q (by simp [hq]))
    have at' : ∀ b : Nat, b < 65536 → Memory.lookup b ((a, v) :: rest) = Memory.lookup b n := by
      intro b hb
      have := h (BitVec.ofNat 16 b)
      simpa [Memory.read, Nat.mod_eq_of_lt hb] using this
    cases n with
    | nil =>
      have := at' a hp.1
      simp [Memory.lookup] at this
      exact absurd this hp.2
    | cons q r =>
      obtain ⟨c, u⟩ := q
      have hq := hn.2 (c, u) (by simp)
      have hnl := List.pairwise_cons.1 hn.1
      have hac : a = c := by
        rcases Nat.lt_trichotomy a c with hlt | heq | hlt
        · have := at' a hp.1
          rw [below ((c, u) :: r) a (by
            intro q hq'
            rcases List.mem_cons.1 hq' with rfl | hq'
            · exact hlt
            · exact hlt.trans (hnl.1 q hq'))] at this
          simp [Memory.lookup] at this
          exact absurd this hp.2
        · exact heq
        · have := at' c hq.1
          rw [below ((a, v) :: rest) c (by
            intro q hq'
            rcases List.mem_cons.1 hq' with rfl | hq'
            · exact hlt
            · exact hlt.trans (hml.1 q hq'))] at this
          simp [Memory.lookup] at this
          exact absurd this.symm hq.2
      subst hac
      have hvu : v = u := by simpa [Memory.lookup] using at' a hp.1
      subst hvu
      congr 1
      refine ih ⟨hml.2, fun p hp => hm.2 p (by simp [hp])⟩ ⟨hnl.2, fun p hp => hn.2 p (by simp [hp])⟩ ?_
      intro b
      by_cases hb : b.toNat = a
      · simp only [Memory.read]
        rw [hb, below rest a hml.1, below r a hnl.1]
      · have := at' b.toNat b.isLt
        simpa [Memory.lookup, hb, Memory.read] using this

end Sys2Proof.Machine
end

