-- ==== Sys2Proof/Laws/State.lean ====
section
/-! SUPPORT. One lemma per field per update of `State`, so that no proof unfolds a record update, and the laws of the
register file (10_state.md R20). -/

namespace Sys2Proof.Machine

/-! ### The register file -/

@[simp] theorem RegFile.get_set_self (f : RegFile) (r : Reg) (v : Word) : (f.set r v).get r = v := by
  cases r <;> rfl

theorem RegFile.get_set (f : RegFile) (r q : Reg) (v : Word) :
    (f.set r v).get q = if q = r then v else f.get q := by
  cases r <;> cases q <;> rfl

@[simp] theorem RegFile.get_set_ne (f : RegFile) {r q : Reg} (v : Word) (h : q ≠ r) : (f.set r v).get q = f.get q := by
  rw [RegFile.get_set, if_neg h]

/-- Two register files that read alike are equal. -/
theorem RegFile.ext_get {f g : RegFile} (h : ∀ r, f.get r = g.get r) : f = g := by
  cases f; cases g
  have := h .r0; have := h .r1; have := h .r2; have := h .r3
  have := h .r4; have := h .r5; have := h .r6; have := h .r7
  simp_all [RegFile.get]

theorem State.getReg_setReg (s : State) (r q : Reg) (v : Word) :
    (s.setReg r v).getReg q = if q = r then v else s.getReg q :=
  RegFile.get_set s.regs r q v

@[simp] theorem State.getReg_setReg_self (s : State) (r : Reg) (v : Word) : (s.setReg r v).getReg r = v :=
  RegFile.get_set_self s.regs r v

@[simp] theorem State.getReg_setReg_ne (s : State) {r q : Reg} (v : Word) (h : q ≠ r) :
    (s.setReg r v).getReg q = s.getReg q :=
  RegFile.get_set_ne s.regs v h

/-! ### `setReg` -/

@[simp] theorem State.regs_setReg (s : State) (r : Reg) (v : Word) : (s.setReg r v).regs = s.regs.set r v := rfl
@[simp] theorem State.pc_setReg (s : State) (r : Reg) (v : Word) : (s.setReg r v).pc = s.pc := rfl
@[simp] theorem State.cond_setReg (s : State) (r : Reg) (v : Word) : (s.setReg r v).cond = s.cond := rfl
@[simp] theorem State.run_setReg (s : State) (r : Reg) (v : Word) : (s.setReg r v).run = s.run := rfl
@[simp] theorem State.mem_setReg (s : State) (r : Reg) (v : Word) : (s.setReg r v).mem = s.mem := rfl
@[simp] theorem State.inq_setReg (s : State) (r : Reg) (v : Word) : (s.setReg r v).inq = s.inq := rfl
@[simp] theorem State.out_setReg (s : State) (r : Reg) (v : Word) : (s.setReg r v).out = s.out := rfl
@[simp] theorem State.flushed_setReg (s : State) (r : Reg) (v : Word) : (s.setReg r v).flushed = s.flushed := rfl
@[simp] theorem State.hold_setReg (s : State) (r : Reg) (v : Word) : (s.setReg r v).hold = s.hold := rfl
@[simp] theorem State.params_setReg (s : State) (r : Reg) (v : Word) : (s.setReg r v).params = s.params := rfl

/-! ### `setPc` -/

@[simp] theorem State.getReg_setPc (s : State) (q : Reg) (v : Word) : (s.setPc v).getReg q = s.getReg q := rfl
@[simp] theorem State.regs_setPc (s : State) (v : Word) : (s.setPc v).regs = s.regs := rfl
@[simp] theorem State.pc_setPc (s : State) (v : Word) : (s.setPc v).pc = v := rfl
@[simp] theorem State.cond_setPc (s : State) (v : Word) : (s.setPc v).cond = s.cond := rfl
@[simp] theorem State.run_setPc (s : State) (v : Word) : (s.setPc v).run = s.run := rfl
@[simp] theorem State.mem_setPc (s : State) (v : Word) : (s.setPc v).mem = s.mem := rfl
@[simp] theorem State.inq_setPc (s : State) (v : Word) : (s.setPc v).inq = s.inq := rfl
@[simp] theorem State.out_setPc (s : State) (v : Word) : (s.setPc v).out = s.out := rfl
@[simp] theorem State.flushed_setPc (s : State) (v : Word) : (s.setPc v).flushed = s.flushed := rfl
@[simp] theorem State.hold_setPc (s : State) (v : Word) : (s.setPc v).hold = s.hold := rfl
@[simp] theorem State.params_setPc (s : State) (v : Word) : (s.setPc v).params = s.params := rfl

/-! ### `setCond` -/

@[simp] theorem State.getReg_setCond (s : State) (q : Reg) (c : BitVec 3) : (s.setCond c).getReg q = s.getReg q := rfl
@[simp] theorem State.regs_setCond (s : State) (c : BitVec 3) : (s.setCond c).regs = s.regs := rfl
@[simp] theorem State.pc_setCond (s : State) (c : BitVec 3) : (s.setCond c).pc = s.pc := rfl
@[simp] theorem State.cond_setCond (s : State) (c : BitVec 3) : (s.setCond c).cond = c := rfl
@[simp] theorem State.run_setCond (s : State) (c : BitVec 3) : (s.setCond c).run = s.run := rfl
@[simp] theorem State.mem_setCond (s : State) (c : BitVec 3) : (s.setCond c).mem = s.mem := rfl
@[simp] theorem State.inq_setCond (s : State) (c : BitVec 3) : (s.setCond c).inq = s.inq := rfl
@[simp] theorem State.out_setCond (s : State) (c : BitVec 3) : (s.setCond c).out = s.out := rfl
@[simp] theorem State.flushed_setCond (s : State) (c : BitVec 3) : (s.setCond c).flushed = s.flushed := rfl
@[simp] theorem State.hold_setCond (s : State) (c : BitVec 3) : (s.setCond c).hold = s.hold := rfl
@[simp] theorem State.params_setCond (s : State) (c : BitVec 3) : (s.setCond c).params = s.params := rfl

/-! ### `setRun` -/

@[simp] theorem State.getReg_setRun (s : State) (q : Reg) (r : RunState) : (s.setRun r).getReg q = s.getReg q := rfl
@[simp] theorem State.regs_setRun (s : State) (r : RunState) : (s.setRun r).regs = s.regs := rfl
@[simp] theorem State.pc_setRun (s : State) (r : RunState) : (s.setRun r).pc = s.pc := rfl
@[simp] theorem State.cond_setRun (s : State) (r : RunState) : (s.setRun r).cond = s.cond := rfl
@[simp] theorem State.run_setRun (s : State) (r : RunState) : (s.setRun r).run = r := rfl
@[simp] theorem State.mem_setRun (s : State) (r : RunState) : (s.setRun r).mem = s.mem := rfl
@[simp] theorem State.inq_setRun (s : State) (r : RunState) : (s.setRun r).inq = s.inq := rfl
@[simp] theorem State.out_setRun (s : State) (r : RunState) : (s.setRun r).out = s.out := rfl
@[simp] theorem State.flushed_setRun (s : State) (r : RunState) : (s.setRun r).flushed = s.flushed := rfl
@[simp] theorem State.hold_setRun (s : State) (r : RunState) : (s.setRun r).hold = s.hold := rfl
@[simp] theorem State.params_setRun (s : State) (r : RunState) : (s.setRun r).params = s.params := rfl

/-! ### `setMem` -/

@[simp] theorem State.getReg_setMem (s : State) (q : Reg) (m : Memory) : (s.setMem m).getReg q = s.getReg q := rfl
@[simp] theorem State.regs_setMem (s : State) (m : Memory) : (s.setMem m).regs = s.regs := rfl
@[simp] theorem State.pc_setMem (s : State) (m : Memory) : (s.setMem m).pc = s.pc := rfl
@[simp] theorem State.cond_setMem (s : State) (m : Memory) : (s.setMem m).cond = s.cond := rfl
@[simp] theorem State.run_setMem (s : State) (m : Memory) : (s.setMem m).run = s.run := rfl
@[simp] theorem State.mem_setMem (s : State) (m : Memory) : (s.setMem m).mem = m := rfl
@[simp] theorem State.inq_setMem (s : State) (m : Memory) : (s.setMem m).inq = s.inq := rfl
@[simp] theorem State.out_setMem (s : State) (m : Memory) : (s.setMem m).out = s.out := rfl
@[simp] theorem State.flushed_setMem (s : State) (m : Memory) : (s.setMem m).flushed = s.flushed := rfl
@[simp] theorem State.hold_setMem (s : State) (m : Memory) : (s.setMem m).hold = s.hold := rfl
@[simp] theorem State.params_setMem (s : State) (m : Memory) : (s.setMem m).params = s.params := rfl

/-! ### `setInq` -/

@[simp] theorem State.getReg_setInq (s : State) (x : Reg) (q : List Byte) : (s.setInq q).getReg x = s.getReg x := rfl
@[simp] theorem State.regs_setInq (s : State) (q : List Byte) : (s.setInq q).regs = s.regs := rfl
@[simp] theorem State.pc_setInq (s : State) (q : List Byte) : (s.setInq q).pc = s.pc := rfl
@[simp] theorem State.cond_setInq (s : State) (q : List Byte) : (s.setInq q).cond = s.cond := rfl
@[simp] theorem State.run_setInq (s : State) (q : List Byte) : (s.setInq q).run = s.run := rfl
@[simp] theorem State.mem_setInq (s : State) (q : List Byte) : (s.setInq q).mem = s.mem := rfl
@[simp] theorem State.inq_setInq (s : State) (q : List Byte) : (s.setInq q).inq = q := rfl
@[simp] theorem State.out_setInq (s : State) (q : List Byte) : (s.setInq q).out = s.out := rfl
@[simp] theorem State.flushed_setInq (s : State) (q : List Byte) : (s.setInq q).flushed = s.flushed := rfl
@[simp] theorem State.hold_setInq (s : State) (q : List Byte) : (s.setInq q).hold = s.hold := rfl
@[simp] theorem State.params_setInq (s : State) (q : List Byte) : (s.setInq q).params = s.params := rfl

/-! ### `setOut` -/

@[simp] theorem State.getReg_setOut (s : State) (q : Reg) (o : List Byte) : (s.setOut o).getReg q = s.getReg q := rfl
@[simp] theorem State.regs_setOut (s : State) (o : List Byte) : (s.setOut o).regs = s.regs := rfl
@[simp] theorem State.pc_setOut (s : State) (o : List Byte) : (s.setOut o).pc = s.pc := rfl
@[simp] theorem State.cond_setOut (s : State) (o : List Byte) : (s.setOut o).cond = s.cond := rfl
@[simp] theorem State.run_setOut (s : State) (o : List Byte) : (s.setOut o).run = s.run := rfl
@[simp] theorem State.mem_setOut (s : State) (o : List Byte) : (s.setOut o).mem = s.mem := rfl
@[simp] theorem State.inq_setOut (s : State) (o : List Byte) : (s.setOut o).inq = s.inq := rfl
@[simp] theorem State.out_setOut (s : State) (o : List Byte) : (s.setOut o).out = o := rfl
@[simp] theorem State.flushed_setOut (s : State) (o : List Byte) : (s.setOut o).flushed = s.flushed := rfl
@[simp] theorem State.hold_setOut (s : State) (o : List Byte) : (s.setOut o).hold = s.hold := rfl
@[simp] theorem State.params_setOut (s : State) (o : List Byte) : (s.setOut o).params = s.params := rfl

/-! ### `setFlushed` -/

@[simp] theorem State.getReg_setFlushed (s : State) (q : Reg) (n : Nat) : (s.setFlushed n).getReg q = s.getReg q := rfl
@[simp] theorem State.regs_setFlushed (s : State) (n : Nat) : (s.setFlushed n).regs = s.regs := rfl
@[simp] theorem State.pc_setFlushed (s : State) (n : Nat) : (s.setFlushed n).pc = s.pc := rfl
@[simp] theorem State.cond_setFlushed (s : State) (n : Nat) : (s.setFlushed n).cond = s.cond := rfl
@[simp] theorem State.run_setFlushed (s : State) (n : Nat) : (s.setFlushed n).run = s.run := rfl
@[simp] theorem State.mem_setFlushed (s : State) (n : Nat) : (s.setFlushed n).mem = s.mem := rfl
@[simp] theorem State.inq_setFlushed (s : State) (n : Nat) : (s.setFlushed n).inq = s.inq := rfl
@[simp] theorem State.out_setFlushed (s : State) (n : Nat) : (s.setFlushed n).out = s.out := rfl
@[simp] theorem State.flushed_setFlushed (s : State) (n : Nat) : (s.setFlushed n).flushed = n := rfl
@[simp] theorem State.hold_setFlushed (s : State) (n : Nat) : (s.setFlushed n).hold = s.hold := rfl
@[simp] theorem State.params_setFlushed (s : State) (n : Nat) : (s.setFlushed n).params = s.params := rfl

/-! ### `setHold` -/

@[simp] theorem State.getReg_setHold (s : State) (q : Reg) (h : Option HoldPoint) : (s.setHold h).getReg q = s.getReg q := rfl
@[simp] theorem State.regs_setHold (s : State) (h : Option HoldPoint) : (s.setHold h).regs = s.regs := rfl
@[simp] theorem State.pc_setHold (s : State) (h : Option HoldPoint) : (s.setHold h).pc = s.pc := rfl
@[simp] theorem State.cond_setHold (s : State) (h : Option HoldPoint) : (s.setHold h).cond = s.cond := rfl
@[simp] theorem State.run_setHold (s : State) (h : Option HoldPoint) : (s.setHold h).run = s.run := rfl
@[simp] theorem State.mem_setHold (s : State) (h : Option HoldPoint) : (s.setHold h).mem = s.mem := rfl
@[simp] theorem State.inq_setHold (s : State) (h : Option HoldPoint) : (s.setHold h).inq = s.inq := rfl
@[simp] theorem State.out_setHold (s : State) (h : Option HoldPoint) : (s.setHold h).out = s.out := rfl
@[simp] theorem State.flushed_setHold (s : State) (h : Option HoldPoint) : (s.setHold h).flushed = s.flushed := rfl
@[simp] theorem State.hold_setHold (s : State) (h : Option HoldPoint) : (s.setHold h).hold = h := rfl
@[simp] theorem State.params_setHold (s : State) (h : Option HoldPoint) : (s.setHold h).params = s.params := rfl

end Sys2Proof.Machine
end

