-- ==== Sys2Proof/Laws/Interfaces.lean ====
section
/-! SUPPORT. What the host's operations leave in each field: one lemma per field for the state after reset, so that no
proof unfolds `powerOn` and the 65,536 cells in it. `Memory.read_ofCells` and `Memory.wf_ofCells` say the rest about
its memory. -/

namespace Sys2Proof.Machine

variable (p : Config.Params) (drawn : Word → Word) (q : List Byte)

@[simp] theorem getReg_powerOn (r : Reg) : (powerOn p drawn q).getReg r = 0x0000 := by cases r <;> rfl
@[simp] theorem pc_powerOn : (powerOn p drawn q).pc = p.pcStart := rfl
@[simp] theorem cond_powerOn : (powerOn p drawn q).cond = 0b000 := rfl
@[simp] theorem run_powerOn : (powerOn p drawn q).run = .running := rfl
@[simp] theorem mem_powerOn : (powerOn p drawn q).mem = Memory.ofCells (unloadedCell p.memFill drawn) := rfl
@[simp] theorem inq_powerOn : (powerOn p drawn q).inq = q := rfl
@[simp] theorem out_powerOn : (powerOn p drawn q).out = [] := rfl
@[simp] theorem flushed_powerOn : (powerOn p drawn q).flushed = 0 := rfl
@[simp] theorem hold_powerOn : (powerOn p drawn q).hold = none := rfl
@[simp] theorem params_powerOn : (powerOn p drawn q).params = p := rfl

theorem unloadedCell_word (v a : Word) : unloadedCell (.word v) drawn a = v := rfl
theorem unloadedCell_any (a : Word) : unloadedCell .any drawn a = drawn a := rfl

end Sys2Proof.Machine
end

