-- ==== Sys2Proof/Laws/Ops.lean ====
section
/-! SUPPORT. For each shared operation, once, what it does: its result in every case, and what it leaves alone. Proofs
cite these lemmas and do not unfold the operations. -/

namespace Sys2Proof.Machine

/-! ### The devices -/

theorem inTake_nil {s : State} (h : s.inq = []) : inTake s = none := by simp [inTake, h]

theorem inTake_cons {s : State} {c : Byte} {q : List Byte} (h : s.inq = c :: q) : inTake s = some (c, s.setInq q) := by
  simp [inTake, h]

theorem inTake_isSome (s : State) : (inTake s).isSome = inAvail s := by
  cases h : s.inq <;> simp [inTake, inAvail, h]

@[simp] theorem getReg_outPut (b : Byte) (s : State) (r : Reg) : (outPut b s).getReg r = s.getReg r := rfl
@[simp] theorem regs_outPut (b : Byte) (s : State) : (outPut b s).regs = s.regs := rfl
@[simp] theorem pc_outPut (b : Byte) (s : State) : (outPut b s).pc = s.pc := rfl
@[simp] theorem cond_outPut (b : Byte) (s : State) : (outPut b s).cond = s.cond := rfl
@[simp] theorem run_outPut (b : Byte) (s : State) : (outPut b s).run = s.run := rfl
@[simp] theorem mem_outPut (b : Byte) (s : State) : (outPut b s).mem = s.mem := rfl
@[simp] theorem inq_outPut (b : Byte) (s : State) : (outPut b s).inq = s.inq := rfl
@[simp] theorem out_outPut (b : Byte) (s : State) : (outPut b s).out = s.out ++ [b] := rfl
@[simp] theorem flushed_outPut (b : Byte) (s : State) : (outPut b s).flushed = s.flushed := rfl
@[simp] theorem hold_outPut (b : Byte) (s : State) : (outPut b s).hold = s.hold := rfl
@[simp] theorem params_outPut (b : Byte) (s : State) : (outPut b s).params = s.params := rfl

@[simp] theorem getReg_outPutAll (bs : List Byte) (s : State) (r : Reg) :
    (outPutAll bs s).getReg r = s.getReg r := rfl
@[simp] theorem regs_outPutAll (bs : List Byte) (s : State) : (outPutAll bs s).regs = s.regs := rfl
@[simp] theorem pc_outPutAll (bs : List Byte) (s : State) : (outPutAll bs s).pc = s.pc := rfl
@[simp] theorem cond_outPutAll (bs : List Byte) (s : State) : (outPutAll bs s).cond = s.cond := rfl
@[simp] theorem run_outPutAll (bs : List Byte) (s : State) : (outPutAll bs s).run = s.run := rfl
@[simp] theorem mem_outPutAll (bs : List Byte) (s : State) : (outPutAll bs s).mem = s.mem := rfl
@[simp] theorem inq_outPutAll (bs : List Byte) (s : State) : (outPutAll bs s).inq = s.inq := rfl
@[simp] theorem out_outPutAll (bs : List Byte) (s : State) : (outPutAll bs s).out = s.out ++ bs := rfl
@[simp] theorem flushed_outPutAll (bs : List Byte) (s : State) : (outPutAll bs s).flushed = s.flushed := rfl
@[simp] theorem hold_outPutAll (bs : List Byte) (s : State) : (outPutAll bs s).hold = s.hold := rfl
@[simp] theorem params_outPutAll (bs : List Byte) (s : State) : (outPutAll bs s).params = s.params := rfl

/-- Output one byte at a time, in order, is output of the list (R155, R158). -/
theorem outPutAll_eq_foldl (bs : List Byte) (s : State) : outPutAll bs s = bs.foldl (fun t b => outPut b t) s := by
  induction bs generalizing s with
  | nil => simp [outPutAll, State.setOut]
  | cons b bs ih => rw [List.foldl_cons, ← ih]; simp [outPutAll, outPut, State.setOut]

@[simp] theorem getReg_outFlush (s : State) (r : Reg) : (outFlush s).getReg r = s.getReg r := rfl
@[simp] theorem regs_outFlush (s : State) : (outFlush s).regs = s.regs := rfl
@[simp] theorem pc_outFlush (s : State) : (outFlush s).pc = s.pc := rfl
@[simp] theorem cond_outFlush (s : State) : (outFlush s).cond = s.cond := rfl
@[simp] theorem run_outFlush (s : State) : (outFlush s).run = s.run := rfl
@[simp] theorem mem_outFlush (s : State) : (outFlush s).mem = s.mem := rfl
@[simp] theorem inq_outFlush (s : State) : (outFlush s).inq = s.inq := rfl
@[simp] theorem out_outFlush (s : State) : (outFlush s).out = s.out := rfl
@[simp] theorem flushed_outFlush (s : State) : (outFlush s).flushed = s.out.length := rfl
@[simp] theorem hold_outFlush (s : State) : (outFlush s).hold = s.hold := rfl
@[simp] theorem params_outFlush (s : State) : (outFlush s).params = s.params := rfl

/-! ### The keyboard poll and the two memory operations -/

theorem keyboardPoll_nil {s : State} (h : s.inq = []) : keyboardPoll s = s.setMem (s.mem.write kbsr 0x0000) := by
  simp [keyboardPoll, inTake_nil h]

theorem keyboardPoll_cons {s : State} {c : Byte} {q : List Byte} (h : s.inq = c :: q) :
    keyboardPoll s = (s.setInq q).setMem ((s.mem.write kbsr 0x8000).write kbdr (zext8 c)) := by
  simp [keyboardPoll, inTake_cons h]

theorem memRead_other {a : Word} (s : State) (h : a ≠ kbsr) : memRead a s = (s.mem.read a, s) := by
  simp [memRead, h]

theorem memRead_kbsr_nil {s : State} (h : s.inq = []) :
    memRead kbsr s = (0x0000, s.setMem (s.mem.write kbsr 0x0000)) := by
  simp [memRead, keyboardPoll_nil h]

theorem memRead_kbsr_cons {s : State} {c : Byte} {q : List Byte} (h : s.inq = c :: q) :
    memRead kbsr s = (0x8000, (s.setInq q).setMem ((s.mem.write kbsr 0x8000).write kbdr (zext8 c))) := by
  simp [memRead, keyboardPoll_cons h, kbsr, kbdr]

/-- Everything a read can do (R52, R53). -/
theorem memRead_cases (a : Word) (s : State) :
    (a ≠ kbsr ∧ memRead a s = (s.mem.read a, s)) ∨
    (a = kbsr ∧ s.inq = [] ∧ memRead a s = (0x0000, s.setMem (s.mem.write kbsr 0x0000))) ∨
    (a = kbsr ∧ ∃ c q, s.inq = c :: q ∧
      memRead a s = (0x8000, (s.setInq q).setMem ((s.mem.write kbsr 0x8000).write kbdr (zext8 c)))) := by
  by_cases h : a = kbsr
  · subst h
    cases hq : s.inq with
    | nil => exact .inr (.inl ⟨rfl, rfl, memRead_kbsr_nil hq⟩)
    | cons c q => exact .inr (.inr ⟨rfl, c, q, rfl, memRead_kbsr_cons hq⟩)
  · exact .inl ⟨h, memRead_other s h⟩

/-- A read changes memory and input alone. -/
theorem memRead_snd (a : Word) (s : State) :
    (memRead a s).2 = { s with mem := (memRead a s).2.mem, inq := (memRead a s).2.inq } := by
  rcases memRead_cases a s with ⟨_, h⟩ | ⟨_, _, h⟩ | ⟨_, _, _, _, h⟩ <;> rw [h] <;> rfl

@[simp] theorem getReg_memRead (a : Word) (s : State) (r : Reg) : (memRead a s).2.getReg r = s.getReg r := by
  rw [memRead_snd]; rfl
@[simp] theorem regs_memRead (a : Word) (s : State) : (memRead a s).2.regs = s.regs := by rw [memRead_snd]
@[simp] theorem pc_memRead (a : Word) (s : State) : (memRead a s).2.pc = s.pc := by rw [memRead_snd]
@[simp] theorem cond_memRead (a : Word) (s : State) : (memRead a s).2.cond = s.cond := by rw [memRead_snd]
@[simp] theorem run_memRead (a : Word) (s : State) : (memRead a s).2.run = s.run := by rw [memRead_snd]
@[simp] theorem out_memRead (a : Word) (s : State) : (memRead a s).2.out = s.out := by rw [memRead_snd]
@[simp] theorem flushed_memRead (a : Word) (s : State) : (memRead a s).2.flushed = s.flushed := by rw [memRead_snd]
@[simp] theorem hold_memRead (a : Word) (s : State) : (memRead a s).2.hold = s.hold := by rw [memRead_snd]
@[simp] theorem params_memRead (a : Word) (s : State) : (memRead a s).2.params = s.params := by rw [memRead_snd]

/-- A read changes no cell but the two keyboard cells. -/
theorem read_memRead {a b : Word} (s : State) (h1 : b ≠ kbsr) (h2 : b ≠ kbdr) :
    (memRead a s).2.mem.read b = s.mem.read b := by
  rcases memRead_cases a s with ⟨_, h⟩ | ⟨_, _, h⟩ | ⟨_, _, _, _, h⟩ <;> simp [h, h1, h2]

/-- A read takes from the front of the queue. -/
theorem inq_memRead_suffix (a : Word) (s : State) : (memRead a s).2.inq <:+ s.inq := by
  rcases memRead_cases a s with ⟨_, h⟩ | ⟨_, _, h⟩ | ⟨_, c, q, hq, h⟩
  · simp [h]
  · simp [h]
  · simp [h, hq]

/-- A read keeps the canonical form. -/
theorem wf_memRead {s : State} (a : Word) (h : s.mem.wf) : (memRead a s).2.mem.wf := by
  rcases memRead_cases a s with ⟨_, e⟩ | ⟨_, _, e⟩ | ⟨_, _, _, _, e⟩ <;> rw [e]
  · exact h
  · rw [State.mem_setMem]; exact Memory.wf_write _ _ h
  · rw [State.mem_setMem]; exact Memory.wf_write _ _ (Memory.wf_write _ _ h)

@[simp] theorem getReg_memWrite (a v : Word) (s : State) (r : Reg) : (memWrite a v s).getReg r = s.getReg r := rfl
@[simp] theorem regs_memWrite (a v : Word) (s : State) : (memWrite a v s).regs = s.regs := rfl
@[simp] theorem pc_memWrite (a v : Word) (s : State) : (memWrite a v s).pc = s.pc := rfl
@[simp] theorem cond_memWrite (a v : Word) (s : State) : (memWrite a v s).cond = s.cond := rfl
@[simp] theorem run_memWrite (a v : Word) (s : State) : (memWrite a v s).run = s.run := rfl
@[simp] theorem mem_memWrite (a v : Word) (s : State) : (memWrite a v s).mem = s.mem.write a v := rfl
@[simp] theorem inq_memWrite (a v : Word) (s : State) : (memWrite a v s).inq = s.inq := rfl
@[simp] theorem out_memWrite (a v : Word) (s : State) : (memWrite a v s).out = s.out := rfl
@[simp] theorem flushed_memWrite (a v : Word) (s : State) : (memWrite a v s).flushed = s.flushed := rfl
@[simp] theorem hold_memWrite (a v : Word) (s : State) : (memWrite a v s).hold = s.hold := rfl
@[simp] theorem params_memWrite (a v : Word) (s : State) : (memWrite a v s).params = s.params := rfl

/-! ### The condition codes and the end of a flag-setting instruction -/

@[simp] theorem getReg_writeResult_self (d : Reg) (v : Word) (s : State) : (writeResult d v s).getReg d = v :=
  State.getReg_setReg_self s d v
@[simp] theorem getReg_writeResult_ne {d r : Reg} (v : Word) (s : State) (h : r ≠ d) :
    (writeResult d v s).getReg r = s.getReg r :=
  State.getReg_setReg_ne s v h
@[simp] theorem pc_writeResult (d : Reg) (v : Word) (s : State) : (writeResult d v s).pc = s.pc := rfl
@[simp] theorem cond_writeResult (d : Reg) (v : Word) (s : State) : (writeResult d v s).cond = condOf v := rfl
@[simp] theorem run_writeResult (d : Reg) (v : Word) (s : State) : (writeResult d v s).run = s.run := rfl
@[simp] theorem mem_writeResult (d : Reg) (v : Word) (s : State) : (writeResult d v s).mem = s.mem := rfl
@[simp] theorem inq_writeResult (d : Reg) (v : Word) (s : State) : (writeResult d v s).inq = s.inq := rfl
@[simp] theorem out_writeResult (d : Reg) (v : Word) (s : State) : (writeResult d v s).out = s.out := rfl
@[simp] theorem flushed_writeResult (d : Reg) (v : Word) (s : State) : (writeResult d v s).flushed = s.flushed := rfl
@[simp] theorem hold_writeResult (d : Reg) (v : Word) (s : State) : (writeResult d v s).hold = s.hold := rfl
@[simp] theorem params_writeResult (d : Reg) (v : Word) (s : State) : (writeResult d v s).params = s.params := rfl

theorem finishLoad_eq (d : Reg) (r : Word × State) : finishLoad d r = writeResult d r.1 r.2 := rfl

/-! ### Character input: the two ways its wait ends -/

theorem getcTake_nil {s : State} (h : s.inq = []) : getcTake s = s.setHold (some .inGetc) := by
  simp [getcTake, inTake_nil h]

theorem getcTake_cons {s : State} {c : Byte} {q : List Byte} (h : s.inq = c :: q) :
    getcTake s = ((s.setInq q).setReg .r0 (zext8 c)).setHold none := by
  simp [getcTake, inTake_cons h]

theorem inTakeEcho_nil {s : State} (h : s.inq = []) : inTakeEcho s = s.setHold (some .inIn) := by
  simp [inTakeEcho, inTake_nil h]

theorem inTakeEcho_cons {s : State} {c : Byte} {q : List Byte} (h : s.inq = c :: q) :
    inTakeEcho s = ((outFlush (outPut c (s.setInq q))).setReg .r0 (zext8 c)).setHold none := by
  simp [inTakeEcho, inTake_cons h]

/-- Everything the wait of GETC can do (R151, R152). -/
theorem getcTake_cases (s : State) :
    (s.inq = [] ∧ getcTake s = s.setHold (some .inGetc)) ∨
    ∃ c q, s.inq = c :: q ∧ getcTake s = ((s.setInq q).setReg .r0 (zext8 c)).setHold none := by
  cases h : s.inq with
  | nil => exact .inl ⟨rfl, getcTake_nil h⟩
  | cons c q => exact .inr ⟨c, q, rfl, getcTake_cons h⟩

/-- Everything the wait of IN can do (R151, R155). -/
theorem inTakeEcho_cases (s : State) :
    (s.inq = [] ∧ inTakeEcho s = s.setHold (some .inIn)) ∨
    ∃ c q, s.inq = c :: q ∧
      inTakeEcho s = ((outFlush (outPut c (s.setInq q))).setReg .r0 (zext8 c)).setHold none := by
  cases h : s.inq with
  | nil => exact .inl ⟨rfl, inTakeEcho_nil h⟩
  | cons c q => exact .inr ⟨c, q, rfl, inTakeEcho_cons h⟩

/-- A hold that finds no byte leaves the state as it is (R151). -/
theorem resume_nil {s : State} {h : HoldPoint} (hh : s.hold = some h) (hq : s.inq = []) : resume h s = s := by
  cases h
  · rw [resume, getcTake_nil hq, State.setHold, ← hh]
  · rw [resume, inTakeEcho_nil hq, State.setHold, ← hh]

/-! ### The string loop: everything it leaves alone -/

/-- The loop changes memory, input and output alone (R154, R156). -/
theorem stringLoop_frame {emit : Word → List Byte} {n : Nat} {a : Word} {s t : State}
    (h : stringLoop emit n a s = some t) : t = { s with mem := t.mem, inq := t.inq, out := t.out } := by
  induction n generalizing a s with
  | zero => simp [stringLoop] at h
  | succ n ih =>
    rw [stringLoop] at h
    split at h
    · cases h; rw [memRead_snd]
    · rw [ih h, outPutAll, memRead_snd]; rfl

theorem stringLoop_read {emit : Word → List Byte} {n : Nat} {a b : Word} {s t : State}
    (h : stringLoop emit n a s = some t) (h1 : b ≠ kbsr) (h2 : b ≠ kbdr) : t.mem.read b = s.mem.read b := by
  induction n generalizing a s with
  | zero => simp [stringLoop] at h
  | succ n ih =>
    rw [stringLoop] at h
    split at h
    · cases h; exact read_memRead s h1 h2
    · rw [ih h, mem_outPutAll, read_memRead s h1 h2]

theorem stringLoop_wf {emit : Word → List Byte} {n : Nat} {a : Word} {s t : State}
    (h : stringLoop emit n a s = some t) (hw : s.mem.wf) : t.mem.wf := by
  induction n generalizing a s with
  | zero => simp [stringLoop] at h
  | succ n ih =>
    rw [stringLoop] at h
    split at h
    · cases h; exact wf_memRead a hw
    · exact ih h (wf_memRead a hw)

theorem stringLoop_inq {emit : Word → List Byte} {n : Nat} {a : Word} {s t : State}
    (h : stringLoop emit n a s = some t) : t.inq <:+ s.inq := by
  induction n generalizing a s with
  | zero => simp [stringLoop] at h
  | succ n ih =>
    rw [stringLoop] at h
    split at h
    · cases h; exact inq_memRead_suffix a s
    · exact (ih h).trans (inq_memRead_suffix a s)

theorem stringLoop_out {emit : Word → List Byte} {n : Nat} {a : Word} {s t : State}
    (h : stringLoop emit n a s = some t) : s.out <+: t.out := by
  induction n generalizing a s with
  | zero => simp [stringLoop] at h
  | succ n ih =>
    rw [stringLoop] at h
    split at h
    · cases h; simp
    · exact (List.prefix_append s.out _).trans (by simpa using ih h)

/-- More room never changes the outcome of a loop that ended. -/
theorem stringLoop_mono {emit : Word → List Byte} {n m : Nat} {a : Word} {s t : State}
    (h : stringLoop emit n a s = some t) (hm : n ≤ m) : stringLoop emit m a s = some t := by
  induction n generalizing a s m with
  | zero => simp [stringLoop] at h
  | succ n ih =>
    obtain ⟨m, rfl⟩ : ∃ k, m = k + 1 := ⟨m - 1, by omega⟩
    rw [stringLoop] at h ⊢
    split at h
    · rename_i hc
      rw [if_pos hc]; exact h
    · rename_i hc
      rw [if_neg hc]; exact ih h (by omega)

/-! ### The string loop ends (log entry 10)

The distance of the pointer to KBSR falls with every cell; at KBSR the poll either makes the cell zero, which ends the
loop, or takes one of the finitely many pending bytes. -/

theorem eq_kbsr_of_distance_zero {a : Word} (h : (kbsr - a).toNat = 0) : a = kbsr := by
  unfold kbsr at *; bv_omega

theorem distance_succ {a : Word} {d : Nat} (h : (kbsr - a).toNat = d + 1) : (kbsr - (a + 1)).toNat = d := by
  unfold kbsr at *; bv_omega

/-- From `d` cells before KBSR, with at most `k` bytes pending, the loop meets a zero cell within `d + 1` cells and `k`
rounds of memory. -/
theorem stringLoop_ends_within (emit : Word → List Byte) (k d : Nat) (a : Word) (s : State) (hk : s.inq.length ≤ k)
    (hd : (kbsr - a).toNat = d) : ∃ t, stringLoop emit (d + 1 + 65536 * k) a s = some t := by
  induction k generalizing d a s with
  | zero =>
    induction d generalizing a s with
    | zero =>
      obtain rfl := eq_kbsr_of_distance_zero hd
      have hq : s.inq = [] := by simpa using hk
      exact ⟨_, by rw [show 0 + 1 + 65536 * 0 = 0 + 1 from rfl, stringLoop, memRead_kbsr_nil hq, if_pos rfl]⟩
    | succ d ih =>
      rw [show d + 1 + 1 + 65536 * 0 = (d + 1 + 65536 * 0) + 1 by omega, stringLoop]
      split
      · exact ⟨_, rfl⟩
      · exact ih _ _ ((inq_memRead_suffix a s).length_le.trans hk) (distance_succ hd)
  | succ k ihk =>
    induction d generalizing a s with
    | zero =>
      obtain rfl := eq_kbsr_of_distance_zero hd
      rw [show 0 + 1 + 65536 * (k + 1) = (65535 + 1 + 65536 * k) + 1 by omega, stringLoop]
      split
      · exact ⟨_, rfl⟩
      · rename_i hne
        refine ihk _ _ _ ?_ (by decide)
        cases hq : s.inq with
        | nil => rw [memRead_kbsr_nil hq] at hne; exact absurd rfl hne
        | cons c q =>
          rw [memRead_kbsr_cons hq]
          have : q.length + 1 ≤ k + 1 := by simpa [hq] using hk
          simpa using this
    | succ d ih =>
      rw [show d + 1 + 1 + 65536 * (k + 1) = (d + 1 + 65536 * (k + 1)) + 1 by omega, stringLoop]
      split
      · exact ⟨_, rfl⟩
      · exact ih _ _ ((inq_memRead_suffix a s).length_le.trans hk) (distance_succ hd)

/-- The bound the routines use is enough, in every state and from every address. -/
theorem stringLoop_ends (emit : Word → List Byte) (a : Word) (s : State) :
    ∃ t, stringLoop emit (stringFuel s) a s = some t := by
  obtain ⟨t, h⟩ := stringLoop_ends_within emit s.inq.length _ a s le_rfl rfl
  refine ⟨t, stringLoop_mono h ?_⟩
  have := (kbsr - a).isLt
  unfold stringFuel
  omega

/-- Everything PUTS and PUTSP can do: the loop ends, then one flush (R154, R156). -/
theorem stringRoutine_eq (emit : Word → List Byte) (s : State) :
    ∃ t, stringLoop emit (stringFuel s) (s.getReg .r0) s = some t ∧ stringRoutine emit s = .next (outFlush t) := by
  obtain ⟨t, h⟩ := stringLoop_ends emit (s.getReg .r0) s
  exact ⟨t, h, by rw [stringRoutine, h]⟩

end Sys2Proof.Machine
end

