-- ==== Sys2Proof/Laws/PerInstr.lean ====
section
/-! SUPPORT. Statements for every instruction as syntax, one lemma per constructor. The family `OpcodeRow`: the word of
an instruction lies in its row of spec/opcode_table.json ("a word w belongs to the row when w & mask = match",
30_encoding.md R92), whatever its operands. -/

namespace Sys2Proof.Laws.OpcodeRow

/-- The encoding of the instruction is a word of its row. -/
def Statement (i : Instr) : Prop := encode i &&& i.rowMask = i.rowMatch

/-- Two words that agree on each of their 16 bits are equal. -/
theorem word_eq_of_bits {x y : Word} (h : ∀ k < 16, x.getLsbD k = y.getLsbD k) : x = y :=
  BitVec.eq_of_getLsbD_eq (fun k hk => h k hk)

theorem addReg (d a b : Reg) : Statement (.addReg d a b) := by
  simp only [Statement, encode, Instr.rowMask, Instr.rowMatch, place]
  refine word_eq_of_bits fun k hk => ?_
  interval_cases k <;> simp

theorem addImm (d a : Reg) (i : BitVec 5) : Statement (.addImm d a i) := by
  simp only [Statement, encode, Instr.rowMask, Instr.rowMatch, place]
  refine word_eq_of_bits fun k hk => ?_
  interval_cases k <;> simp

theorem andReg (d a b : Reg) : Statement (.andReg d a b) := by
  simp only [Statement, encode, Instr.rowMask, Instr.rowMatch, place]
  refine word_eq_of_bits fun k hk => ?_
  interval_cases k <;> simp

theorem andImm (d a : Reg) (i : BitVec 5) : Statement (.andImm d a i) := by
  simp only [Statement, encode, Instr.rowMask, Instr.rowMatch, place]
  refine word_eq_of_bits fun k hk => ?_
  interval_cases k <;> simp

theorem not (d a : Reg) : Statement (.not d a) := by
  simp only [Statement, encode, Instr.rowMask, Instr.rowMatch, place]
  refine word_eq_of_bits fun k hk => ?_
  interval_cases k <;> simp

theorem br (m : BitVec 3) (o : BitVec 9) : Statement (.br m o) := by
  simp only [Statement, encode, Instr.rowMask, Instr.rowMatch, place]
  refine word_eq_of_bits fun k hk => ?_
  interval_cases k <;> simp

theorem jmp (b : Reg) : Statement (.jmp b) := by
  simp only [Statement, encode, Instr.rowMask, Instr.rowMatch, place]
  refine word_eq_of_bits fun k hk => ?_
  interval_cases k <;> simp

theorem jsr (o : BitVec 11) : Statement (.jsr o) := by
  simp only [Statement, encode, Instr.rowMask, Instr.rowMatch, place]
  refine word_eq_of_bits fun k hk => ?_
  interval_cases k <;> simp

theorem jsrr (b : Reg) : Statement (.jsrr b) := by
  simp only [Statement, encode, Instr.rowMask, Instr.rowMatch, place]
  refine word_eq_of_bits fun k hk => ?_
  interval_cases k <;> simp

theorem ld (d : Reg) (o : BitVec 9) : Statement (.ld d o) := by
  simp only [Statement, encode, Instr.rowMask, Instr.rowMatch, place]
  refine word_eq_of_bits fun k hk => ?_
  interval_cases k <;> simp

theorem ldi (d : Reg) (o : BitVec 9) : Statement (.ldi d o) := by
  simp only [Statement, encode, Instr.rowMask, Instr.rowMatch, place]
  refine word_eq_of_bits fun k hk => ?_
  interval_cases k <;> simp

theorem ldr (d b : Reg) (o : BitVec 6) : Statement (.ldr d b o) := by
  simp only [Statement, encode, Instr.rowMask, Instr.rowMatch, place]
  refine word_eq_of_bits fun k hk => ?_
  interval_cases k <;> simp

theorem lea (d : Reg) (o : BitVec 9) : Statement (.lea d o) := by
  simp only [Statement, encode, Instr.rowMask, Instr.rowMatch, place]
  refine word_eq_of_bits fun k hk => ?_
  interval_cases k <;> simp

theorem st (r : Reg) (o : BitVec 9) : Statement (.st r o) := by
  simp only [Statement, encode, Instr.rowMask, Instr.rowMatch, place]
  refine word_eq_of_bits fun k hk => ?_
  interval_cases k <;> simp

theorem sti (r : Reg) (o : BitVec 9) : Statement (.sti r o) := by
  simp only [Statement, encode, Instr.rowMask, Instr.rowMatch, place]
  refine word_eq_of_bits fun k hk => ?_
  interval_cases k <;> simp

theorem str (r b : Reg) (o : BitVec 6) : Statement (.str r b o) := by
  simp only [Statement, encode, Instr.rowMask, Instr.rowMatch, place]
  refine word_eq_of_bits fun k hk => ?_
  interval_cases k <;> simp

theorem trap (v : BitVec 8) : Statement (.trap v) := by
  simp only [Statement, encode, Instr.rowMask, Instr.rowMatch, place]
  refine word_eq_of_bits fun k hk => ?_
  interval_cases k <;> simp

theorem trapGetc : Statement .trapGetc := by unfold Statement; decide

theorem trapOut : Statement .trapOut := by unfold Statement; decide

theorem trapPuts : Statement .trapPuts := by unfold Statement; decide

theorem trapIn : Statement .trapIn := by unfold Statement; decide

theorem trapPutsp : Statement .trapPutsp := by unfold Statement; decide

theorem trapHalt : Statement .trapHalt := by unfold Statement; decide

theorem rti : Statement .rti := by unfold Statement; decide

theorem res : Statement .res := by unfold Statement; decide

end Sys2Proof.Laws.OpcodeRow
end

