-- ==== Sys2Proof/Tests/Slice0.lean ====
section
/-! SUPPORT. The model's own tests: words written out from the encodings of 30_encoding.md, single steps with the
expected results of 95_test_vectors.md (its table is named in each comment), and for each statement that has hypotheses
a witness that meets them. -/

namespace Sys2Proof.Tests

open Sys2Proof.Machine Sys2Proof.Claims Sys2Proof.Safety

/-! ### Helpers -/

/-- The registers of a test: the first listed value goes to the first listed register, the rest are zero. -/
def regs (l : List (Reg × Word)) : RegFile := l.foldl (fun f p => f.set p.1 p.2) State.reset.regs

/-- A state of a test: reset, but for registers, `cond`, memory and pending input. -/
def start (l : List (Reg × Word)) (c : BitVec 3) (m : List (Word × Word)) (q : List Byte) : State :=
  { State.reset with regs := regs l, cond := c, mem := m.foldl (fun m p => m.write p.1 p.2) [], inq := q }

/-- The next state of an outcome. -/
def nextOf : Result → Option State
  | .next t => some t
  | .fault _ => none
  | .refused _ => none

/-- One step on a word placed at `pc`, and something of the state it gives. -/
def go {α : Type} (s : State) (w : Nat) (f : State → α) : Option α := (nextOf (step (s.withFetchWord 16 w))).map f

/-! ### Well-formedness: the one check, on both sides of its range -/

theorem test_wf_refuses_first_routine_code : (Instr.trap 0x20).wf = false := by decide
theorem test_wf_refuses_last_routine_code : (Instr.trap 0x25).wf = false := by decide
theorem test_wf_admits_neighbours : (Instr.trap 0x1F).wf = true ∧ (Instr.trap 0x26).wf = true := by decide

/-! ### Decoding: one word per constructor, bit by bit from R82 and R83 -/

theorem test_decode_addReg : decode 0b0001_001_010_0_00_011 = .addReg .r1 .r2 .r3 := by decide
theorem test_decode_addImm : decode 0b0001_010_011_1_10000 = .addImm .r2 .r3 (-16) := by decide
theorem test_decode_andReg : decode 0b0101_011_100_0_00_101 = .andReg .r3 .r4 .r5 := by decide
theorem test_decode_andImm : decode 0b0101_110_111_1_01111 = .andImm .r6 .r7 15 := by decide
theorem test_decode_not : decode 0b1001_010_011_111111 = .not .r2 .r3 := by decide
theorem test_decode_br : decode 0b0000_101_100000001 = .br 0b101 0b100000001 := by decide
theorem test_decode_jmp : decode 0b1100_000_111_000000 = .jmp .r7 := by decide
theorem test_decode_jsr : decode 0b0100_1_10000000001 = .jsr 0b10000000001 := by decide
theorem test_decode_jsrr : decode 0b0100_0_00_010_000000 = .jsrr .r2 := by decide
theorem test_decode_ld : decode 0b0010_001_000000101 = .ld .r1 5 := by decide
theorem test_decode_ldi : decode 0b1010_100_111111110 = .ldi .r4 (-2) := by decide
theorem test_decode_ldr : decode 0b0110_001_010_111111 = .ldr .r1 .r2 (-1) := by decide
theorem test_decode_lea : decode 0b1110_101_011111111 = .lea .r5 255 := by decide
theorem test_decode_st : decode 0b0011_110_000000010 = .st .r6 2 := by decide
theorem test_decode_sti : decode 0b1011_001_000000100 = .sti .r1 4 := by decide
theorem test_decode_str : decode 0b0111_000_110_000011 = .str .r0 .r6 3 := by decide
theorem test_decode_trap : decode 0b1111_0000_11111111 = .trap 0xFF := by decide
theorem test_decode_getc : decode 0b1111_0000_00100000 = .trapGetc := by decide
theorem test_decode_out : decode 0b1111_0000_00100001 = .trapOut := by decide
theorem test_decode_puts : decode 0b1111_0000_00100010 = .trapPuts := by decide
theorem test_decode_in : decode 0b1111_0000_00100011 = .trapIn := by decide
theorem test_decode_putsp : decode 0b1111_0000_00100100 = .trapPutsp := by decide
theorem test_decode_halt : decode 0b1111_0000_00100101 = .trapHalt := by decide
theorem test_decode_rti : decode 0b1000_000000000000 = .rti := by decide
theorem test_decode_res : decode 0b1101_000100100011 = .res := by decide

/-- Ignored bits set have no effect (R88): ADD 4:3, NOT 5:0, JMP, JSRR, TRAP 11:8. -/
theorem test_decode_ignored_bits :
    decode 0x1018 = .addReg .r0 .r0 .r0 ∧ decode 0x94C0 = .not .r2 .r3 ∧ decode 0xCEFF = .jmp .r3 ∧
    decode 0x46BF = .jsrr .r2 ∧ decode 0xFF1F = .trap 0x1F := by decide

/-- The words the spec writes out for canonical encodings (R84, R96, R97, R124). -/
theorem test_encode_canonical :
    encode .trapHalt = 0xF025 ∧ encode .trapGetc = 0xF020 ∧ encode (.jmp .r7) = 0xC1C0 ∧
    encode (.not .r1 .r1) = 0x927F ∧ encode (.addReg .r1 .r2 .r3) = 0x1283 := by decide

/-! ### Sign extension and condition codes (V1, V2) -/

theorem test_sext_negative : sext 0x1FD#9 = 0xFFFD ∧ sext 0b10000#5 = 0xFFF0 ∧ sext 0x20#6 = 0xFFE0 ∧
    sext 0x400#11 = 0xFC00 := by decide
theorem test_sext_positive : sext 0b01111#5 = 0x000F ∧ sext 0x3FF#11 = 0x03FF ∧ sext 0x8001#16 = 0x8001 := by decide
theorem test_setcc_corners : condOf 0x0000 = 0b010 ∧ condOf 0x0001 = 0b001 ∧ condOf 0x7FFF = 0b001 ∧
    condOf 0x8000 = 0b100 ∧ condOf 0xFFFF = 0b100 := by decide

/-! ### Operate instructions (V3, V4) -/

theorem test_add_register : go (start [(.r2, 0x0003), (.r3, 0xFFFE)] 0 [] []) 0x1283
    (fun t => (t.getReg .r1, t.cond, t.pc)) = some (0x0001, 0b001, 0x3001) := by decide
theorem test_add_source_is_destination : go (start [(.r1, 0x4000)] 0 [] []) 0x1241
    (fun t => (t.getReg .r1, t.cond)) = some (0x8000, 0b100) := by decide
theorem test_add_immediate_wraps : go (start [(.r2, 0xFFFF)] 0 [] []) 0x14A1
    (fun t => (t.getReg .r2, t.cond)) = some (0x0000, 0b010) := by decide
theorem test_add_immediate_negative : go (start [(.r3, 0x0010)] 0 [] []) 0x14F0
    (fun t => (t.getReg .r2, t.cond)) = some (0x0000, 0b010) := by decide
theorem test_and_register : go (start [(.r2, 0xF0F0), (.r3, 0x0FF0)] 0 [] []) 0x5283
    (fun t => (t.getReg .r1, t.cond)) = some (0x00F0, 0b001) := by decide
theorem test_and_immediate_mask : go (start [(.r2, 0xBEEF)] 0 [] []) 0x52B0
    (fun t => (t.getReg .r1, t.cond)) = some (0xBEE0, 0b100) := by decide
theorem test_and_immediate_zero : go (start [(.r0, 0xBEEF)] 0 [] []) 0x5020
    (fun t => (t.getReg .r0, t.cond)) = some (0x0000, 0b010) := by decide
theorem test_not : go (start [(.r1, 0x00FF)] 0 [] []) 0x927F
    (fun t => (t.getReg .r1, t.cond)) = some (0xFF00, 0b100) := by decide

/-! ### Control transfer (V5, V6) -/

theorem test_br_taken_each_condition :
    go (start [] 0b001 [] []) 0x0205 State.pc = some 0x3006 ∧ go (start [] 0b010 [] []) 0x0405 State.pc = some 0x3006 ∧
    go (start [] 0b100 [] []) 0x0805 State.pc = some 0x3006 ∧ go (start [] 0b010 [] []) 0x0A05 State.pc = some 0x3001 ∧
    go (start [] 0b000 [] []) 0x0E05 State.pc = some 0x3001 := by decide
theorem test_br_wraps : go { start [] 0b100 [] [] with pc := 0x0001 } 0x09FD State.pc = some 0xFFFF := by decide
theorem test_jmp : go (start [(.r3, 0x4000), (.r7, 0x1111)] 0 [] []) 0xC0C0
    (fun t => (t.pc, t.getReg .r7)) = some (0x4000, 0x1111) := by decide
theorem test_jsr : go { start [] 0b100 [] [] with pc := 0x3001 } 0x4802
    (fun t => (t.pc, t.getReg .r7, t.cond)) = some (0x3004, 0x3002, 0b100) := by decide
theorem test_jsrr : go (start [(.r2, 0x5000)] 0b001 [] []) 0x4080
    (fun t => (t.pc, t.getReg .r7, t.cond)) = some (0x5000, 0x3001, 0b001) := by decide
theorem test_jsrr_r7_saves_first : go (start [(.r7, 0x5000)] 0 [] []) 0x41C0
    (fun t => (t.pc, t.getReg .r7)) = some (0x3001, 0x3001) := by decide

/-! ### Data movement (V7, V8) -/

theorem test_ld_own_word : go (start [] 0 [] []) 0x23FF (fun t => (t.getReg .r1, t.cond)) = some (0x23FF, 0b001) := by
  decide
theorem test_ld_polls : go { start [] 0 [] [0x41] with pc := 0xFD00 } 0x20FF
    (fun t => (t.getReg .r0, t.cond, t.inq, t.mem.read 0xFE00, t.mem.read 0xFE02)) =
      some (0x8000, 0b100, [], 0x8000, 0x0041) := by decide
theorem test_ldi_status_without_input : go (start [] 0 [(0x3005, 0xFE00), (0xFE00, 0x8000), (0xFE02, 0x0041)] []) 0xA004
    (fun t => (t.getReg .r0, t.cond, t.mem.read 0xFE00, t.mem.read 0xFE02)) = some (0x0000, 0b010, 0x0000, 0x0041) := by
  decide
theorem test_ldi_data_consumes_nothing : go (start [] 0 [(0x3004, 0xFE02), (0xFE02, 0x0041)] [0x42]) 0xA003
    (fun t => (t.getReg .r0, t.cond, t.inq)) = some (0x0041, 0b001, [0x42]) := by decide
theorem test_ldr_base_is_destination : go (start [(.r2, 0x4000)] 0 [(0x401F, 0x0007)] []) 0x649F
    (fun t => (t.getReg .r2, t.cond)) = some (0x0007, 0b001) := by decide
theorem test_ldr_wraps : go (start [(.r2, 0x0010)] 0 [(0xFFF0, 0x7FFF)] []) 0x62A0
    (fun t => (t.getReg .r1, t.cond)) = some (0x7FFF, 0b001) := by decide
theorem test_lea_sets_flags : go { start [] 0 [] [] with pc := 0x7F00 } 0xEAFF
    (fun t => (t.getReg .r5, t.cond)) = some (0x8000, 0b100) := by decide
theorem test_lea_wraps_to_zero : go { start [] 0 [] [] with pc := 0x0000 } 0xEBFF
    (fun t => (t.getReg .r5, t.cond)) = some (0x0000, 0b010) := by decide
theorem test_st_own_cell : go (start [(.r1, 0xF025)] 0b010 [] []) 0x33FF
    (fun t => (t.mem.read 0x3000, t.pc, t.cond)) = some (0xF025, 0x3001, 0b010) := by decide
theorem test_sti_pointer_to_itself : go (start [(.r1, 0xABCD)] 0 [(0x3001, 0x3001)] []) 0xB200
    (fun t => t.mem.read 0x3001) = some 0xABCD := by decide
theorem test_sti_to_status_does_not_poll : go (start [(.r2, 0x0001)] 0 [(0x3002, 0xFE00)] [0x41]) 0xB401
    (fun t => (t.mem.read 0xFE00, t.inq)) = some (0x0001, [0x41]) := by decide
theorem test_str_source_is_base : go (start [(.r6, 0x4000)] 0 [] []) 0x7DBF
    (fun t => t.mem.read 0x3FFF) = some 0x4000 := by decide
theorem test_str_wraps : go (start [(.r0, 0x5555)] 0 [] []) 0x707F (fun t => t.mem.read 0xFFFF) = some 0x5555 := by
  decide

/-! ### TRAP (V9) -/

theorem test_getc : go (start [(.r0, 0xFFFF)] 0b100 [] [0x61, 0x62]) 0xF020
    (fun t => (t.getReg .r0, t.cond, t.inq, t.out, t.pc)) = some (0x0061, 0b100, [0x62], [], 0x3001) := by decide
theorem test_getc_holds : go (start [(.r0, 0x1234)] 0 [] []) 0xF020
    (fun t => (t.getReg .r0, t.hold, t.run)) = some (0x1234, some .inGetc, .running) := by decide
theorem test_out : go (start [(.r0, 0x1241)] 0b010 [] []) 0xF021
    (fun t => (t.out, t.flushed, t.getReg .r0, t.cond)) = some ([0x41], 1, 0x1241, 0b010) := by decide
theorem test_puts_cell_0100_does_not_end :
    go (start [(.r0, 0x4000)] 0 [(0x4000, 0x1241), (0x4001, 0x0100), (0x4002, 0x0042)] []) 0xF022
      (fun t => (t.out, t.flushed)) = some ([0x41, 0x00, 0x42], 3) := by decide
theorem test_puts_pointer_wraps : go (start [(.r0, 0xFFFF)] 0 [(0xFFFF, 0x0041), (0x0000, 0x0042)] []) 0xF022
    (fun t => (t.out, t.getReg .r0)) = some ([0x41, 0x42], 0xFFFF) := by decide
theorem test_in : go (start [] 0b100 [] [0x7A]) 0xF023
    (fun t => (t.out, t.getReg .r0, t.cond, t.inq)) =
      some ([0x45, 0x6E, 0x74, 0x65, 0x72, 0x20, 0x61, 0x20, 0x63, 0x68, 0x61, 0x72, 0x61, 0x63, 0x74, 0x65, 0x72, 0x3A,
        0x20, 0x7A], 0x007A, 0b100, []) := by decide
theorem test_in_holds_after_prompt : go (start [] 0 [] []) 0xF023
    (fun t => (t.out.length, t.flushed, t.hold)) = some (19, 0, some .inIn) := by decide
theorem test_putsp : go (start [(.r0, 0x4000)] 0 [(0x4000, 0x6548), (0x4001, 0x006C)] []) 0xF024
    (fun t => t.out) = some [0x48, 0x65, 0x6C] := by decide
theorem test_putsp_zero_low_byte : go (start [(.r0, 0x4000)] 0 [(0x4000, 0x4100)] []) 0xF024
    (fun t => t.out) = some [0x00, 0x41] := by decide
theorem test_halt : go (start [(.r0, 0x7777)] 0b100 [] []) 0xFF25
    (fun t => (t.run, t.out, t.getReg .r0, t.cond, t.pc)) =
      some (.halted, [0x48, 0x41, 0x4C, 0x54, 0x0A], 0x7777, 0b100, 0x3001) := by decide
theorem test_undefined_trap_code : go (start [(.r7, 0x1111)] 0 [] []) 0xF026
    (fun t => (t.pc, t.getReg .r7, t.out, t.run)) = some (0x3001, 0x1111, [], .running) := by decide

/-! ### Reserved opcodes and fetch corners (V10) -/

theorem test_rti : go (start [] 0 [] []) 0x8FFF (fun t => (t.pc, t.run)) = some (0x3001, .faulted) := by decide
theorem test_res : go (start [(.r0, 0x0005)] 0b001 [] []) 0xD123
    (fun t => (t.pc, t.run, t.getReg .r0, t.cond)) = some (0x3001, .faulted, 0x0005, 0b001) := by decide
theorem test_fetch_status_with_input : (nextOf (step { start [] 0 [] [0x41] with pc := 0xFE00 })).map
    (fun t => (t.pc, t.run, t.mem.read 0xFE00, t.mem.read 0xFE02, t.inq)) =
      some (0xFE01, .faulted, 0x8000, 0x0041, []) := by decide
theorem test_fetch_wraps : go { start [] 0 [] [] with pc := 0xFFFF } 0x1021
    (fun t => (t.pc, t.getReg .r0, t.cond)) = some (0x0000, 0x0001, 0b001) := by decide

/-- The first steps of V12: the data cell does not poll, the status cell does, and a byte not read is lost. -/
theorem test_poll_sequence :
    (memRead 0xFE02 (start [] 0 [] [0x41, 0x42])).1 = 0x0000 ∧
    (memRead 0xFE02 (memRead 0xFE00 (start [] 0 [] [0x41, 0x42])).2).1 = 0x0041 ∧
    (memRead 0xFE02 (memRead 0xFE00 (memRead 0xFE00 (start [] 0 [] [0x41, 0x42])).2).2).1 = 0x0042 := by decide

/-! ### Memory keeps its canonical form; images -/

theorem test_write_of_unlisted_value_removes : (Memory.write [(5, 7)] 5 0x0000) = [] := by decide
theorem test_write_sorts : (Memory.write [(5, 7), (9, 1)] 6 2) = [(5, 7), (6, 2), (9, 1)] := by decide
theorem test_parse_image : parseImage [0x30, 0x00, 0xF0, 0x25] = some ⟨0x3000, [0xF025]⟩ := by decide
theorem test_later_image_wins : (hostLoadImages [⟨0x3000, [1, 2]⟩, ⟨0x3001, [3]⟩] State.reset).map
    (fun t => (t.mem.read 0x3000, t.mem.read 0x3001)) = some (1, 3) := by decide

/-! ### Witnesses: a state and operands that meet the hypotheses of each statement that has any -/

theorem reset_meets_invariant : Inv State.reset :=
  ⟨Memory.wf_nil, .inl rfl, rfl, fun h => absurd rfl h⟩

/-- DecodeEncodeAgree, WritersTable. -/
theorem witness_well_formed : (Instr.addImm .r1 .r2 (-1)).wf = true ∧ (Instr.trap 0xFF).wf = true := by decide
/-- DecodeFollowsOpcodeTable, second clause. -/
theorem witness_word_in_row : (∀ v, Instr.trapHalt ≠ .trap v) ∧
    (0xFF25 : Word) &&& Instr.trapHalt.rowMask = Instr.trapHalt.rowMatch := ⟨(by intro v h; cases h), by decide⟩
/-- IllegalWordsFault: both branches at the ends of the two ranges. -/
theorem witness_illegal_words : State.reset.run = .running ∧
    decode 0x8000 = .rti ∧ decode 0x8FFF = .rti ∧ decode 0xD000 = .res ∧ decode 0xDFFF = .res ∧
    decode 0x7FFF = .str .r7 .r7 (-1) ∧ decode 0x9000 = .not .r0 .r0 ∧ decode 0xCFFF = .jmp .r7 ∧
    decode 0xE000 = .lea .r0 0 := by decide
/-- StepRunsDecodedInstruction, its three clauses; the first also at the wrap of `pc`. -/
theorem witness_step_clauses :
    (∃ s u w, s.run = .running ∧ s.hold = none ∧ s.pc = 0xFFFF ∧ memRead s.pc s = (w, u)) ∧
    (∃ s : State, s.run = .halted) ∧ ∃ s : State, s.run = .faulted :=
  ⟨⟨{ State.reset with pc := 0xFFFF }, _, _, rfl, rfl, rfl, rfl⟩, ⟨{ State.reset with run := .halted }, rfl⟩,
    ⟨{ State.reset with run := .faulted }, rfl⟩⟩
/-- FetchOfPlainCell, on both sides of 0xFE00. -/
theorem witness_plain_fetch : [0xFDFF#16, 0xFE01#16].all (fun p =>
    ({ State.reset with pc := p } : State).run = .running ∧ ({ State.reset with pc := p } : State).hold = none ∧
    ({ State.reset with pc := p } : State).pc ≠ 0xFE00) = true := by decide
/-- FetchAtKeyboardStatus, with and without input. -/
theorem witness_status_fetch : [[], [0x41#8]].all (fun q =>
    ({ State.reset with pc := 0xFE00, inq := q } : State).run = .running ∧
    ({ State.reset with pc := 0xFE00, inq := q } : State).hold = none ∧
    ({ State.reset with pc := 0xFE00, inq := q } : State).pc = 0xFE00) = true := by decide
/-- SignExtensionFormula, at both ends of its range. -/
theorem witness_sext_range : (1 ≤ 1 ∧ 1 ≤ 16 ∧ sext 1#1 = 0xFFFF) ∧ (1 ≤ 16 ∧ 16 ≤ 16 ∧ sext 0x8001#16 = 0x8001) := by
  decide
/-- FlagSettersAreTheSeven, WritersTable, TrapKeepsLinkAndFlags, ConditionStaysOneHot: instructions that answer. -/
theorem witness_exec_answers : (∃ t, exec (.lea .r0 1) State.reset = .next t) ∧
    (∃ t, exec (.jsr 1) State.reset = .next t) ∧ ∃ t, exec .trapOut State.reset = .next t :=
  ⟨⟨_, rfl⟩, ⟨_, rfl⟩, ⟨_, rfl⟩⟩
/-- BrResult, its four clauses: empty mask, no condition set, mask 111 with one set. -/
theorem witness_br_clauses : (0b000#3 = 0b000) ∧ State.reset.cond = 0b000 ∧
    (start [] 0b001 [] []).cond ≠ 0b000 ∧ (start [] 0b100 [] []).cond ≠ 0b000 := by decide
/-- GetcResult, InResult: a byte pending, none pending. -/
theorem witness_input_queues : (start [] 0 [] [0x41]).inq = 0x41 :: [] ∧ (start [] 0 [] []).inq = [] := by decide
/-- OutResult, HaltResult: TRAP words with bits 11 to 8 clear and set. -/
theorem witness_trap_words : [0xF021#16, 0xFF21#16].all (fun w =>
    w.toNat / 0x1000 = 0xF ∧ w.toNat % 0x100 = 0x21) = true := by decide
/-- HaltResult. -/
theorem witness_halt_words : [0xF025#16, 0xFF25#16].all (fun w =>
    w.toNat / 0x1000 = 0xF ∧ w.toNat % 0x100 = 0x25) = true := by decide
/-- UndefinedTrapCodeDoesNothing, its four boundary codes, as words and in a state. -/
theorem witness_undefined_codes : [0xF000#16, 0xF01F#16, 0xF026#16, 0xF0FF#16].all (fun w => w.toNat / 0x1000 = 0xF ∧
    (w.toNat % 0x100 < 0x20 ∨ 0x26 ≤ w.toNat % 0x100) ∧ (start [] 0 [(0x3000, w)] []).mem.read 0x3000 = w ∧
    (start [] 0 [(0x3000, w)] []).run = .running ∧ (start [] 0 [(0x3000, w)] []).hold = none ∧
    (start [] 0 [(0x3000, w)] []).pc ≠ 0xFE00) = true := by decide
/-- PutsSendsStringCells: the empty string, and one that wraps at the top of memory. -/
theorem witness_plain_strings :
    (State.reset.mem.read (State.reset.getReg .r0 + BitVec.ofNat 16 0) = 0x0000 ∧
      State.reset.getReg .r0 + BitVec.ofNat 16 0 ≠ 0xFE00) ∧
    [0, 1].all (fun k => (start [(.r0, 0xFFFF)] 0 [(0xFFFF, 0x0041), (0x0000, 0x0042)] []).mem.read
      (0xFFFF + BitVec.ofNat 16 k) ≠ 0x0000 ∧ (0xFFFF#16 + BitVec.ofNat 16 k) ≠ 0xFE00) = true ∧
    (start [(.r0, 0xFFFF)] 0 [(0xFFFF, 0x0041), (0x0000, 0x0042)] []).mem.read (0xFFFF + BitVec.ofNat 16 2) = 0x0000 ∧
    (0xFFFF#16 + BitVec.ofNat 16 2) ≠ 0xFE00 := by decide
/-- TrapKeepsLinkAndFlags, ReservedOpcodesFault. -/
theorem witness_kinds : isTrap (.trap 0xFF) ∧ isTrap .trapPuts ∧ isReserved .rti ∧ isReserved .res := by
  simp [isTrap, isReserved]
/-- HoldWaitsForHost, its three clauses. -/
theorem witness_holds :
    (({ State.reset with hold := some .inGetc } : State).hold ≠ none ∧ State.reset.inq = []) ∧
    [HoldPoint.inGetc, HoldPoint.inIn].all (fun h =>
      ({ State.reset with hold := some h, inq := [0x41] } : State).hold = some h ∧
      ({ State.reset with hold := some h, inq := [0x41] } : State).inq = 0x41 :: [] ∧
      ({ State.reset with hold := some h, inq := [0x41] } : State).run = .running) = true := by decide
/-- FaultIsPreciseAndFinal: a step that faults, and a core at rest under a schedule. -/
theorem witness_fault : (∃ t, step (start [] 0 [(0x3000, 0x8000)] []) = .next t ∧ t.run = .faulted) ∧
    ∃ t, ({ State.reset with run := .halted } : State).run ≠ .running ∧
      runSchedule [.input 0x41] { State.reset with run := .halted } = .next t :=
  ⟨⟨_, rfl, rfl⟩, ⟨_, by decide, rfl⟩⟩
/-- FetchSeesEarlierStore: ST, STI and STR that store to the cell `pc` points to, and an ST that stores elsewhere. -/
theorem witness_store_ahead :
    (storeSource (.st .r1 0) = some .r1 ∧ cellsStored State.reset (.st .r1 0) = [State.reset.pc]) ∧
    (storeSource (.sti .r1 1) = some .r1 ∧
      cellsStored (start [] 0 [(0x3001, 0x3000)] []) (.sti .r1 1) = [(start [] 0 [(0x3001, 0x3000)] []).pc]) ∧
    (storeSource (.str .r1 .r6 (-1)) = some .r1 ∧
      cellsStored (start [(.r6, 0x3001)] 0 [] []) (.str .r1 .r6 (-1)) = [(start [(.r6, 0x3001)] 0 [] []).pc]) ∧
    cellsStored State.reset (.st .r1 (-1)) = [0x2FFF] ∧ State.reset.pc = 0x3000 ∧ State.reset.run = .running ∧
    State.reset.hold = none := by decide
/-- ResetValues: a `MEM_FILL` of each kind, "any" with the one drawn cell at the top of memory. -/
theorem witness_fills :
    ({ defaultParams with memFill := .word 0x1234 } : Config.Params).memFill = .word 0x1234 ∧
    ({ defaultParams with memFill := .any } : Config.Params).memFill = .any ∧
    unloadedCell .any (fun a => if a = 0xFFFF then 0xBEEF else 0x0001) 0xFFFF = 0xBEEF ∧
    unloadedCell (.word 0x1234) (fun _ => 0xBEEF) 0xFFFF = 0x1234 := by decide
/-- ImageLoadsAtOrigin: one word in the last cell. -/
theorem witness_image_fits : (0xFFFF#16).toNat + [0xF025#16].length ≤ 65536 := by decide
/-- StepKeepsInvariant, ScheduleKeepsInvariant, InputTakenFromFront, OutputDeliveredAtBoundaries,
EveryInstructionAnswersNext. -/
theorem witness_invariant_step : Inv State.reset ∧ OutputLegal State.reset ∧ State.reset.run = .running ∧
    (∃ t, step State.reset = .next t) ∧ ∃ t, runSchedule [.input 0x41, .core] State.reset = .next t :=
  ⟨reset_meets_invariant, rfl, rfl, ⟨_, rfl⟩, ⟨_, rfl⟩⟩
/-- OutputDeliveredAtBoundaries in the other branch of its premise: an IN that waits. -/
theorem witness_waiting_in : OutputLegal { State.reset with hold := some .inIn, out := defaultInPrompt } := by
  unfold OutputLegal; decide
/-- ConditionStaysOneHot. -/
theorem witness_one_hot : OneHot (start [] 0b100 [] []).cond ∧ (∃ t, runSchedule [.core] (start [] 0b100 [] []) = .next t) ∧
    flagDest (.lea .r0 1) ≠ none := ⟨.inl rfl, ⟨_, rfl⟩, by decide⟩
/-- OutputIsUnobservable: two states with different output. -/
theorem witness_same_but_output : SameButOutput State.reset { State.reset with out := [0x41], flushed := 1 } ∧
    (∃ t, step State.reset = .next t) ∧ ∃ f, step { State.reset with run := .halted } = .fault f :=
  ⟨rfl, ⟨_, rfl⟩, ⟨_, rfl⟩⟩
/-- InputArrivalCommutes: a step that leaves a byte unread. -/
theorem witness_unread_input : ∃ t, step (start [] 0 [] [0x41]) = .next t ∧ t.inq ≠ [] := ⟨_, rfl, by decide⟩
/-- LateInputGivesSameResult, for GETC and for IN. -/
theorem witness_late_input :
    [0xF020#16, 0xF023#16].all (fun w => (start [] 0 [(0x3000, w)] []).run = .running ∧
      (start [] 0 [(0x3000, w)] []).hold = none ∧ (start [] 0 [(0x3000, w)] []).inq = []) = true ∧
    takesInput (decode (fetch (start [] 0 [(0x3000, 0xF020)] [])).1) ∧
    takesInput (decode (fetch (start [] 0 [(0x3000, 0xF023)] [])).1) :=
  ⟨by decide, .inl (by decide), .inr (by decide)⟩

end Sys2Proof.Tests
end

section
/-! PROOFS. The register file (10_state.md R20): the 3-bit field of a register, the frame of a register write, and the
obligation that rests on them. -/

/-! ### The register a field selects -/

namespace Sys2Proof

/-- The field of a register is written back as it was read (R86). -/
@[simp] theorem Reg.bits_ofBits (b : BitVec 3) : (Reg.ofBits b).bits = b := by
  revert b; decide

@[simp] theorem Reg.ofBits_bits (r : Reg) : Reg.ofBits r.bits = r := by
  cases r <;> rfl

end Sys2Proof

/-! ### The frame of a register write -/

namespace Sys2Proof.Claims

open Sys2Proof.Machine

theorem regsExcept_setReg (s : State) (r : Reg) (v : Word) : RegsExcept [r] s (s.setReg r v) :=
  fun _ hq => State.getReg_setReg_ne s v (List.ne_of_not_mem_cons hq)

theorem outsideSame_setReg (s : State) (r : Reg) (v : Word) : OutsideSame s (s.setReg r v) :=
  ⟨fun a _ => congrArg (Memory.read · a) (s.mem_setReg r v), s.inq_setReg r v,
    ⟨s.out_setReg r v, s.flushed_setReg r v⟩, s.run_setReg r v, s.hold_setReg r v, s.params_setReg r v⟩

/-- Settles O43: the eight field values one by one, then the read-after-write and frame laws of `setReg`. -/
theorem registerWriteIsPrivate : Obligations.RegisterWriteIsPrivate := by
  unfold Obligations.RegisterWriteIsPrivate
  refine ⟨?selects, Reg.bits_ofBits, Reg.ofBits_bits, ?numbered, ?write⟩
  case selects => decide
  case numbered => exact fun s => ⟨rfl, rfl, rfl, rfl, rfl, rfl, rfl, rfl⟩
  case write =>
    intro s r v
    exact ⟨s.getReg_setReg_self r v, regsExcept_setReg s r v, s.pc_setReg r v, s.cond_setReg r v,
      outsideSame_setReg s r v⟩

end Sys2Proof.Claims
end

section
/-! PROOFS. Memory (20_memory.md, section 1): the frame of a memory write, and the obligation that rests on it. -/

namespace Sys2Proof.Claims

open Sys2Proof.Machine

/-! ### The frame of a memory write -/

theorem memExcept_memWrite (a v : Word) (s : State) : MemExcept [a] s (memWrite a v s) := by
  intro b hb
  rw [mem_memWrite, Memory.read_write_ne _ _ (List.ne_of_not_mem_cons hb)]

theorem regsExcept_memWrite (a v : Word) (s : State) : RegsExcept [] s (memWrite a v s) :=
  fun r _ => getReg_memWrite a v s r

theorem inputSame_memWrite (a v : Word) (s : State) : InputSame s (memWrite a v s) := inq_memWrite a v s

theorem outputSame_memWrite (a v : Word) (s : State) : OutputSame s (memWrite a v s) :=
  ⟨out_memWrite a v s, flushed_memWrite a v s⟩

theorem modeSame_memWrite (a v : Word) (s : State) : ModeSame s (memWrite a v s) :=
  ⟨run_memWrite a v s, hold_memWrite a v s, params_memWrite a v s⟩

/-- Settles O44: the read-after-write law of a memory, then the frame laws of `memWrite`. -/
theorem memWriteStores : Obligations.MemWriteStores := by
  unfold Obligations.MemWriteStores
  intro a v s
  have stored : (memWrite a v s).mem.read a = v := by rw [mem_memWrite, Memory.read_write_self]
  exact ⟨stored, memExcept_memWrite a v s, regsExcept_memWrite a v s, pc_memWrite a v s, cond_memWrite a v s,
    inputSame_memWrite a v s, outputSame_memWrite a v s, modeSame_memWrite a v s⟩

end Sys2Proof.Claims
end

section
/-! PROOFS. Sign extension (40_cycle.md R114): the numbers `sext` stands for, unsigned and signed, and the obligation
that says so. -/

namespace Sys2Proof.Machine

/-- R114's formula: a set high bit adds the ones above the field, which weigh 65536 - 2^n. -/
theorem toNat_sext {n : Nat} (h : n ≤ 16) (v : BitVec n) :
    (sext v).toNat = v.toNat + if v.msb then 65536 - 2 ^ n else 0 := by
  rw [sext, BitVec.toNat_signExtend, BitVec.toNat_setWidth_of_le h]

@[simp] theorem toInt_sext {n : Nat} (h : n ≤ 16) (v : BitVec n) : (sext v).toInt = v.toInt :=
  BitVec.toInt_signExtend_of_le h

@[simp] theorem sext_word (v : Word) : sext v = v := BitVec.signExtend_eq v

end Sys2Proof.Machine

namespace Sys2Proof.Claims

open Sys2Proof.Machine

/-- Settles O9: bit n - 1 is the sign bit of the field, and by it `toNat_sext` gives the two cases of the formula. -/
theorem signExtensionFormula : Obligations.SignExtensionFormula := by
  unfold Obligations.SignExtensionFormula
  refine ⟨fun n _ hn v => ⟨?formula, toInt_sext hn v⟩, sext_word⟩
  case formula =>
    rw [toNat_sext hn, ← BitVec.msb_eq_getLsbD_last]
    cases v.msb with
    | false => simp
    | true => simp

end Sys2Proof.Claims
end

section
/-! PROOFS. The undefined trap codes (44_trap.md R159): the TRAP words and their code, the fetch from a plain cell, and
the obligation that rests on them. -/

/-! ### The decoder on a TRAP word -/

namespace Sys2Proof

theorem toNat_fieldOpcode (w : Word) : (fieldOpcode w).toNat = w.toNat / 0x1000 := by
  have bound := w.isLt
  rw [fieldOpcode, BitVec.extractLsb'_toNat, Nat.shiftRight_eq_div_pow]
  omega

theorem toNat_fieldTrapvect8 (w : Word) : (fieldTrapvect8 w).toNat = w.toNat % 0x100 := by
  rw [fieldTrapvect8, BitVec.extractLsb'_toNat, Nat.shiftRight_zero]

theorem fieldTrapvect8_eq_ofNat (w : Word) : fieldTrapvect8 w = BitVec.ofNat 8 (w.toNat % 0x100) := by
  rw [← toNat_fieldTrapvect8, BitVec.ofNat_toNat, BitVec.setWidth_eq]

/-- Bits 11 to 8 have no part in it (R87, D7). -/
theorem decode_of_trapOpcode {w : Word} (h : w.toNat / 0x1000 = 0xF) :
    decode w = decodeTrap (fieldTrapvect8 w) := by
  have opcode : fieldOpcode w = 0xF#4 := BitVec.eq_of_toNat_eq ((toNat_fieldOpcode w).trans h)
  simp [decode, opcode]

/-! ### Codes that name no routine -/

theorem isRoutineCode_eq_false_iff {v : BitVec 8} : isRoutineCode v = false ↔ v.toNat < 0x20 ∨ 0x26 ≤ v.toNat := by
  simp only [isRoutineCode, Bool.and_eq_false_iff, decide_eq_false_iff_not]
  omega

/-- The six tests that the decoder and the dispatch of R150 make all fail on such a code. -/
theorem ne_routineCodes {v : BitVec 8} (h : isRoutineCode v = false) :
    v ≠ 0x20#8 ∧ v ≠ 0x21#8 ∧ v ≠ 0x22#8 ∧ v ≠ 0x23#8 ∧ v ≠ 0x24#8 ∧ v ≠ 0x25#8 := by
  refine ⟨?_, ?_, ?_, ?_, ?_, ?_⟩ <;> rintro rfl <;> exact absurd h (by decide)

theorem decodeTrap_of_not_routineCode {v : BitVec 8} (h : isRoutineCode v = false) : decodeTrap v = .trap v := by
  simp [decodeTrap, ne_routineCodes h]

end Sys2Proof

namespace Sys2Proof.Machine

theorem exec_trap_of_not_routineCode {v : BitVec 8} (h : isRoutineCode v = false) (s : State) :
    exec (.trap v) s = .next s := by
  simp [exec, execTrap, ne_routineCodes h]

/-! ### The fetch from a plain cell (R111) -/

theorem fetch_plain {s : State} (h : s.pc ≠ kbsr) : fetch s = (s.mem.read s.pc, s.setPc (s.pc + 1)) := by
  rw [fetch, memRead_other s h]

theorem step_of_running {s : State} (hrun : s.run = .running) (hhold : s.hold = none) :
    step s = exec (decode (fetch s).1) (fetch s).2 := by
  simp [step, hrun, hhold]

end Sys2Proof.Machine

namespace Sys2Proof.Claims

open Sys2Proof.Machine

/-- The undefined codes as R159 numbers them, in the low byte of the word, are those that name no routine. -/
theorem not_routineCode_fieldTrapvect8 {w : Word} (h : w.toNat % 0x100 < 0x20 ∨ 0x26 ≤ w.toNat % 0x100) :
    isRoutineCode (fieldTrapvect8 w) = false := by
  rw [isRoutineCode_eq_false_iff, toNat_fieldTrapvect8]
  exact h

theorem decode_undefined_trap {w : Word} (hop : w.toNat / 0x1000 = 0xF)
    (hcode : w.toNat % 0x100 < 0x20 ∨ 0x26 ≤ w.toNat % 0x100) : decode w = .trap (fieldTrapvect8 w) :=
  (decode_of_trapOpcode hop).trans (decodeTrap_of_not_routineCode (not_routineCode_fieldTrapvect8 hcode))

theorem exec_undefined_trap {w : Word} (hop : w.toNat / 0x1000 = 0xF)
    (hcode : w.toNat % 0x100 < 0x20 ∨ 0x26 ≤ w.toNat % 0x100) (s : State) : exec (decode w) s = .next s := by
  rw [decode_undefined_trap hop hcode]
  exact exec_trap_of_not_routineCode (not_routineCode_fieldTrapvect8 hcode) s

/-- Settles O36: such a word decodes to the generic row, whose dispatch falls through, so a step is its fetch alone. -/
theorem undefinedTrapCodeDoesNothing : Obligations.UndefinedTrapCodeDoesNothing := by
  unfold Obligations.UndefinedTrapCodeDoesNothing
  refine ⟨?word, ?step⟩
  case word =>
    intro w s hop hcode
    have row := decode_undefined_trap hop hcode
    rw [fieldTrapvect8_eq_ofNat] at row
    exact ⟨row, exec_undefined_trap hop hcode s⟩
  case step =>
    intro s hrun hhold hpc hop hcode
    calc step s
        = exec (decode (fetch s).1) (fetch s).2 := step_of_running hrun hhold
      _ = exec (decode (s.mem.read s.pc)) (s.setPc (s.pc + 1)) := by rw [fetch_plain hpc]
      _ = .next { s with pc := s.pc + 1 } := exec_undefined_trap hop hcode _

end Sys2Proof.Claims
end

section
/-! PROOFS. The encoding (30_encoding.md): a placed field is read back, the decoder inverts the encoder on the bits it
examines and only there, the rows of the opcode table, and the obligations that rest on them. -/

namespace Sys2Proof

/-! ### A field placed in a word and read back -/

@[simp] theorem extractLsb'_place_same {n lsb : Nat} (v : BitVec n) (h : lsb + n ≤ 16) :
    (place v lsb).extractLsb' lsb n = v := by
  refine BitVec.eq_of_getLsbD_eq fun k hk => ?_
  have inside : lsb + k < 16 := by omega
  simp [place, inside, hk]

@[simp] theorem extractLsb'_place_disjoint {n lsb start len : Nat} (v : BitVec n)
    (h : start + len ≤ lsb ∨ lsb + n ≤ start) : (place v lsb).extractLsb' start len = 0#len := by
  refine BitVec.eq_of_getLsbD_eq fun k hk => ?_
  rcases h with h | h
  · have below : start + k < lsb := by omega
    simp [place, below]
  · have above : v.getLsbD (start + k - lsb) = false := v.getLsbD_of_ge _ (by omega)
    simp [place, above]

/-- A field read and put back is the word under the field's mask. -/
theorem place_extractLsb' (w : Word) (start len : Nat) :
    place (w.extractLsb' start len) start = w &&& place (BitVec.allOnes len) start := by
  refine BitVec.eq_of_getLsbD_eq fun k hk => ?_
  by_cases hs : k < start
  · simp [place, hs]
  · have there : start + (k - start) = k := by omega
    by_cases hl : k - start < len <;> simp [place, hk, hs, hl, there]

section
variable (w : Word)

theorem place_fieldOpcode : place (fieldOpcode w) 12 = w &&& 0xF000#16 := place_extractLsb' w _ _
@[simp] theorem place_fieldDR : place (fieldDR w).bits 9 = w &&& 0x0E00#16 := by
  rw [fieldDR, Reg.bits_ofBits]; exact place_extractLsb' w _ _
@[simp] theorem place_fieldBase : place (fieldBase w).bits 6 = w &&& 0x01C0#16 := by
  rw [fieldBase, Reg.bits_ofBits]; exact place_extractLsb' w _ _
@[simp] theorem place_fieldSR2 : place (fieldSR2 w).bits 0 = w &&& 0x0007#16 := by
  rw [fieldSR2, Reg.bits_ofBits]; exact place_extractLsb' w _ _
@[simp] theorem place_fieldNzp : place (fieldNzp w) 9 = w &&& 0x0E00#16 := place_extractLsb' w _ _
@[simp] theorem place_fieldImm5 : place (fieldImm5 w) 0 = w &&& 0x001F#16 := place_extractLsb' w _ _
@[simp] theorem place_fieldOffset6 : place (fieldOffset6 w) 0 = w &&& 0x003F#16 := place_extractLsb' w _ _
@[simp] theorem place_fieldPCoffset9 : place (fieldPCoffset9 w) 0 = w &&& 0x01FF#16 := place_extractLsb' w _ _
@[simp] theorem place_fieldPCoffset11 : place (fieldPCoffset11 w) 0 = w &&& 0x07FF#16 := place_extractLsb' w _ _
@[simp] theorem place_fieldTrapvect8 : place (fieldTrapvect8 w) 0 = w &&& 0x00FF#16 := place_extractLsb' w _ _

/-- A mode bit is a field of one bit. -/
theorem extractLsb'_one (k : Nat) : w.extractLsb' k 1 = BitVec.ofBool (w.getLsbD k) := by
  refine BitVec.eq_of_getLsbD_eq fun j hj => ?_
  obtain rfl : j = 0 := by omega
  simp

theorem modeImmediate_eq : modeImmediate w = (w.extractLsb' 5 1 == 1#1) := by
  rw [modeImmediate, extractLsb'_one]; cases w.getLsbD 5 <;> rfl

theorem modeJsr_eq : modeJsr w = (w.extractLsb' 11 1 == 1#1) := by
  rw [modeJsr, extractLsb'_one]; cases w.getLsbD 11 <;> rfl

theorem place_modeImmediate : place (BitVec.ofBool (modeImmediate w)) 5 = w &&& 0x0020#16 := by
  rw [modeImmediate, ← extractLsb'_one]; exact place_extractLsb' w _ _

theorem place_modeJsr : place (BitVec.ofBool (modeJsr w)) 11 = w &&& 0x0800#16 := by
  rw [modeJsr, ← extractLsb'_one]; exact place_extractLsb' w _ _

end

/-! ### Agreement on the bits that are not ignored (R88) -/

/-- The word agrees with the encoding of the instruction on every bit that R88 does not ignore. -/
def Agrees (w : Word) (i : Instr) : Prop := w &&& i.usedMask = encode i &&& i.usedMask

section
variable {w : Word} {i : Instr}

/-- Agreement is agreement on each field that lies in the examined bits; the side condition computes. -/
theorem Agrees.field (h : Agrees w i) (start len : Nat) (used : i.usedMask.toNat / 2 ^ start % 2 ^ len = 2 ^ len - 1) :
    w.extractLsb' start len = (encode i).extractLsb' start len := by
  have ones : i.usedMask.extractLsb' start len = BitVec.allOnes len := BitVec.eq_of_toNat_eq (by
    rw [BitVec.extractLsb'_toNat, Nat.shiftRight_eq_div_pow, used, BitVec.toNat_allOnes])
  have masked := congrArg (BitVec.extractLsb' start len) h
  rwa [BitVec.extractLsb'_and, BitVec.extractLsb'_and, ones, BitVec.and_allOnes, BitVec.and_allOnes] at masked

/-- Every field the decoder reads is one it examines, so it reads the fields of the encoding. -/
theorem Agrees.decode_eq (h : Agrees w i) (hwf : i.wf = true) : decode w = i := by
  have field := h.field
  cases i
  case trap v =>
    have opcode : fieldOpcode w = 0xF#4 := by simp [fieldOpcode, field, Instr.usedMask, encode, BitVec.extractLsb'_or]
    have code : fieldTrapvect8 w = v := by simp [fieldTrapvect8, field, Instr.usedMask, encode, BitVec.extractLsb'_or]
    have undefined : isRoutineCode v = false := by simpa [Instr.wf] using hwf
    simp [decode, opcode, code, decodeTrap_of_not_routineCode undefined]
  all_goals
    simp [decode, decodeTrap, fieldOpcode, fieldDR, fieldBase, fieldSR2, fieldNzp, fieldImm5, fieldOffset6,
      fieldPCoffset9, fieldPCoffset11, fieldTrapvect8, modeImmediate_eq, modeJsr_eq, field, Instr.usedMask, encode,
      BitVec.extractLsb'_or]

end

/-- The rows of the routines are written as the generic row writes their codes. -/
theorem encode_decodeTrap (v : BitVec 8) : encode (decodeTrap v) = encode (.trap v) := by
  unfold decodeTrap; split_ifs <;> subst_vars <;> rfl

theorem usedMask_decodeTrap (v : BitVec 8) : (decodeTrap v).usedMask = (Instr.trap v).usedMask := by
  unfold decodeTrap; split_ifs <;> rfl

theorem wf_decodeTrap (v : BitVec 8) : (decodeTrap v).wf = true := by
  revert v; decide

/-- The sixteen opcodes (R83), those first that need more than a placed field or two. -/
theorem opcode_cases (k : BitVec 4) :
    k = 0x1#4 ∨ k = 0x5#4 ∨ k = 0x4#4 ∨ k = 0xF#4 ∨ k = 0x9#4 ∨ k = 0x0#4 ∨ k = 0x2#4 ∨ k = 0x3#4 ∨ k = 0x6#4 ∨
      k = 0x7#4 ∨ k = 0x8#4 ∨ k = 0xA#4 ∨ k = 0xB#4 ∨ k = 0xC#4 ∨ k = 0xD#4 ∨ k = 0xE#4 := by
  revert k; decide

/-- The encoder puts back the fields that the decoder read. -/
theorem agrees_decode (w : Word) : Agrees w (decode w) := by
  have opcode := place_fieldOpcode w
  have immediate := place_modeImmediate w
  have jsr := place_modeJsr w
  obtain h | h | h | h | h | h | h | h | h | h | h | h | h | h | h | h := opcode_cases (fieldOpcode w) <;>
    rw [h] at opcode
  -- ADD and AND: the mode bit is placed too
  iterate 2
    · cases m : modeImmediate w <;>
        simp only [m, BitVec.ofBool_true, BitVec.ofBool_false, BitVec.ofNat_eq_ofNat] at immediate <;>
        simp [decode, h, m, opcode, immediate, Agrees, encode, Instr.usedMask, ← BitVec.and_or_distrib_left,
          BitVec.and_assoc]
  -- JSR and JSRR, alike
  · cases m : modeJsr w <;>
      simp only [m, BitVec.ofBool_true, BitVec.ofBool_false, BitVec.ofNat_eq_ofNat] at jsr <;>
      simp [decode, h, m, opcode, jsr, Agrees, encode, Instr.usedMask, ← BitVec.and_or_distrib_left,
        BitVec.and_assoc]
  -- TRAP: every row is written as the generic one
  · have trap : decode w = decodeTrap (fieldTrapvect8 w) := by simp [decode, h]
    rw [trap, Agrees, encode_decodeTrap, usedMask_decodeTrap]
    simp [encode, opcode, Instr.usedMask, ← BitVec.and_or_distrib_left, BitVec.and_assoc]
  -- NOT: the encoder writes ones where R88 ignores
  · have six : place 0b111111#6 0 = 0x003F#16 := by decide
    simp [decode, h, opcode, six, Agrees, encode, Instr.usedMask, BitVec.and_or_distrib_right,
      ← BitVec.and_or_distrib_left, BitVec.and_assoc]
  -- the other opcodes place their fields and nothing else
  all_goals
    simp [decode, h, opcode, Agrees, encode, Instr.usedMask, ← BitVec.and_or_distrib_left, BitVec.and_assoc]

theorem wf_decode (w : Word) : (decode w).wf = true := by
  obtain h | h | h | h | h | h | h | h | h | h | h | h | h | h | h | h := opcode_cases (fieldOpcode w)
  iterate 2
    · cases m : modeImmediate w <;> simp [decode, h, m, Instr.wf]
  · cases m : modeJsr w <;> simp [decode, h, m, Instr.wf]
  · simp [decode, h, wf_decodeTrap]
  all_goals simp [decode, h, Instr.wf]

theorem decode_eq_iff {w : Word} {i : Instr} : decode w = i ↔ i.wf = true ∧ Agrees w i := by
  constructor
  · rintro rfl
    exact ⟨wf_decode w, agrees_decode w⟩
  · rintro ⟨hwf, h⟩
    exact h.decode_eq hwf

theorem decode_encode {i : Instr} (hwf : i.wf = true) : decode (encode i) = i :=
  decode_eq_iff.2 ⟨hwf, rfl⟩

/-! ### The rows of the opcode table (R92) -/

/-- The encoding of every instruction is a word of its row. -/
theorem encode_mem_row (i : Instr) : encode i &&& i.rowMask = i.rowMatch := by
  cases i with
  | addReg d a b => exact Laws.OpcodeRow.addReg d a b
  | addImm d a i => exact Laws.OpcodeRow.addImm d a i
  | andReg d a b => exact Laws.OpcodeRow.andReg d a b
  | andImm d a i => exact Laws.OpcodeRow.andImm d a i
  | not d a => exact Laws.OpcodeRow.not d a
  | br m o => exact Laws.OpcodeRow.br m o
  | jmp b => exact Laws.OpcodeRow.jmp b
  | jsr o => exact Laws.OpcodeRow.jsr o
  | jsrr b => exact Laws.OpcodeRow.jsrr b
  | ld d o => exact Laws.OpcodeRow.ld d o
  | ldi d o => exact Laws.OpcodeRow.ldi d o
  | ldr d b o => exact Laws.OpcodeRow.ldr d b o
  | lea d o => exact Laws.OpcodeRow.lea d o
  | st r o => exact Laws.OpcodeRow.st r o
  | sti r o => exact Laws.OpcodeRow.sti r o
  | str r b o => exact Laws.OpcodeRow.str r b o
  | trap v => exact Laws.OpcodeRow.trap v
  | trapGetc => exact Laws.OpcodeRow.trapGetc
  | trapOut => exact Laws.OpcodeRow.trapOut
  | trapPuts => exact Laws.OpcodeRow.trapPuts
  | trapIn => exact Laws.OpcodeRow.trapIn
  | trapPutsp => exact Laws.OpcodeRow.trapPutsp
  | trapHalt => exact Laws.OpcodeRow.trapHalt
  | rti => exact Laws.OpcodeRow.rti
  | res => exact Laws.OpcodeRow.res

/-- The decoder examines every bit that tells a row. -/
theorem usedMask_and_rowMask (i : Instr) : i.usedMask &&& i.rowMask = i.rowMask := by
  cases i <;> simp only [Instr.usedMask, Instr.rowMask] <;> decide

/-- A word that agrees with an encoding lies in its row. -/
theorem Agrees.mem_row {w : Word} {i : Instr} (h : Agrees w i) : w &&& i.rowMask = i.rowMatch := by
  calc w &&& i.rowMask
      = (w &&& i.usedMask) &&& i.rowMask := by rw [BitVec.and_assoc, usedMask_and_rowMask]
    _ = (encode i &&& i.usedMask) &&& i.rowMask := congrArg (· &&& i.rowMask) h
    _ = encode i &&& i.rowMask := by rw [BitVec.and_assoc, usedMask_and_rowMask]
    _ = i.rowMatch := encode_mem_row i

/-- Mask and match of the instruction's row. -/
def Instr.row (i : Instr) : Word × Word := (i.rowMask, i.rowMatch)

/-- The rows of the table but the generic TRAP row. -/
def plainRows : List (Word × Word) :=
  [(0xF020, 0x1000), (0xF020, 0x1020), (0xF020, 0x5000), (0xF020, 0x5020), (0xF000, 0x9000), (0xF000, 0x0000),
    (0xF000, 0xC000), (0xF800, 0x4800), (0xF800, 0x4000), (0xF000, 0x2000), (0xF000, 0xA000), (0xF000, 0x6000),
    (0xF000, 0xE000), (0xF000, 0x3000), (0xF000, 0xB000), (0xF000, 0x7000), (0xF0FF, 0xF020), (0xF0FF, 0xF021),
    (0xF0FF, 0xF022), (0xF0FF, 0xF023), (0xF0FF, 0xF024), (0xF0FF, 0xF025), (0xF000, 0x8000), (0xF000, 0xD000)]

theorem row_mem_plainRows {i : Instr} (h : ∀ v, i ≠ .trap v) : i.row ∈ plainRows := by
  cases i
  case trap v => exact absurd rfl (h v)
  all_goals simp [Instr.row, Instr.rowMask, Instr.rowMatch, plainRows]

/-- Two rows with a word in common meet on the bits that both look at. -/
theorem rows_meet {w m n a b : Word} (ha : w &&& m = a) (hb : w &&& n = b) : a &&& n = b &&& m := by
  rw [← ha, ← hb, BitVec.and_assoc, BitVec.and_assoc, BitVec.and_comm m n]

/-- No two of these rows have a word in common. -/
theorem plainRows_disjoint :
    (plainRows.all fun p => plainRows.all fun q => decide (p.2 &&& q.1 = q.2 &&& p.1 → p = q)) = true := by
  decide

theorem eq_of_plainRows_meet {p q : Word × Word} (hp : p ∈ plainRows) (hq : q ∈ plainRows)
    (meet : p.2 &&& q.1 = q.2 &&& p.1) : p = q :=
  of_decide_eq_true (List.all_eq_true.1 (List.all_eq_true.1 plainRows_disjoint p hp) q hq) meet

/-- The only rows that meet the generic TRAP row are its sub-cases, in which R88 ignores what the mask does. -/
theorem usedMask_of_meets_trap {i : Instr} (h : ∀ v, i ≠ .trap v)
    (meets : 0xF000#16 &&& i.rowMask = i.rowMatch &&& 0xF000#16) : i.wf = true ∧ i.usedMask = i.rowMask := by
  cases i
  case trap v => exact absurd rfl (h v)
  case trapGetc | trapOut | trapPuts | trapIn | trapPutsp | trapHalt => exact ⟨rfl, rfl⟩
  all_goals
    simp only [Instr.rowMask, Instr.rowMatch] at meets
    exact absurd meets (by decide)

end Sys2Proof

namespace Sys2Proof.Claims

/-- Settles O1: each word of the table decodes by computation. -/
theorem specWordsDecode : Obligations.SpecWordsDecode := by
  unfold Obligations.SpecWordsDecode
  decide

/-- Settles O2: the encoding agrees with itself on every bit. -/
theorem decodeEncodeAgree : Obligations.DecodeEncodeAgree := by
  unfold Obligations.DecodeEncodeAgree
  exact fun i hwf => decode_encode hwf

/-- Settles O3: `agrees_decode` one way, `Agrees.decode_eq` the other. -/
theorem decodeExactlyUsedBits : Obligations.DecodeExactlyUsedBits := by
  unfold Obligations.DecodeExactlyUsedBits
  exact fun w i => decode_eq_iff

/-- Settles O4: the word agrees with its decoded instruction; two plain rows that share a word are one row; and a word
of a sub-case of TRAP agrees with that sub-case, so it does not decode to the generic row. -/
theorem decodeFollowsOpcodeTable : Obligations.DecodeFollowsOpcodeTable := by
  unfold Obligations.DecodeFollowsOpcodeTable
  refine ⟨fun w => (agrees_decode w).mem_row, fun w i plain inRow => ?_⟩
  suffices (decode w).row = i.row from Prod.mk.inj this
  by_cases generic : ∃ v, decode w = .trap v
  · obtain ⟨v, hv⟩ := generic
    have meets := rows_meet (agrees_decode w).mem_row inRow
    rw [hv] at meets
    obtain ⟨hwf, used⟩ := usedMask_of_meets_trap plain meets
    have agrees : Agrees w i := by rw [Agrees, used, inRow, encode_mem_row]
    rw [agrees.decode_eq hwf]
  · exact eq_of_plainRows_meet (row_mem_plainRows (not_exists.1 generic)) (row_mem_plainRows plain)
      (rows_meet (agrees_decode w).mem_row inRow)

end Sys2Proof.Claims
end

section
/-! PROOFS. The spec's functions in numbers (40_cycle.md R114, R115; 10_state.md R10) and the frames of the updates that
instructions end in. -/

namespace Sys2Proof.Claims

open Sys2Proof.Machine

/-! ### The model's functions are the spec's -/

theorem condOf_eq_conditionOf (v : Word) : condOf v = conditionOf v := by
  have zero : v = 0x0000 ↔ v.toNat = 0 := ⟨fun h => congrArg BitVec.toNat h, fun h => BitVec.eq_of_toNat_eq h⟩
  have negative : v.getLsbD 15 = true ↔ 0x8000 ≤ v.toNat := by
    rw [← BitVec.msb_eq_getLsbD_last v, BitVec.msb_eq_decide, decide_eq_true_iff]
  simp only [condOf, conditionOf, zero, negative]
  rfl

@[simp] theorem zext8_eq_byteWord (c : Byte) : zext8 c = byteWord c := (BitVec.ofNat_toNat 16 c).symm

theorem lowByte_eq_ofNat (w : Word) : lowByte w = BitVec.ofNat 8 (w.toNat % 256) := by
  rw [lowByte, BitVec.extractLsb', Nat.shiftRight_zero]
  exact BitVec.eq_of_toNat_eq (by simp)

theorem highByte_eq_ofNat (w : Word) : highByte w = BitVec.ofNat 8 (w.toNat / 256) := by
  rw [highByte, BitVec.extractLsb', Nat.shiftRight_eq_div_pow]

theorem putsBytes_eq_putsSends : putsBytes = putsSends :=
  funext fun c => congrArg (fun b => [b]) (lowByte_eq_ofNat c)

theorem putspBytes_eq_putspSends : putspBytes = putspSends := by
  funext c
  have bound := c.isLt
  have high : highByte c = 0 ↔ c.toNat / 256 = 0 := by
    rw [highByte_eq_ofNat]
    constructor <;> intro h
    · have low : c.toNat / 256 % 256 = 0 := congrArg BitVec.toNat h
      omega
    · rw [h]; rfl
  simp only [putspBytes, putspSends, high, ← lowByte_eq_ofNat, ← highByte_eq_ofNat]

/-- The sum of a word and a sign-extended field, as a number: every pc-relative or base-plus-offset address, and ADD's
immediate form (R114, R121, R147). -/
theorem toNat_add_sext {n : Nat} (hn : n ≤ 16) (a : Word) (v : BitVec n) :
    ((a + sext v).toNat : Int) = ((a.toNat : Int) + v.toInt) % 65536 := by
  rw [← toInt_sext hn v, BitVec.toInt_eq_toNat_cond, BitVec.toNat_add]
  split <;> omega

/-! ### What an update leaves alone -/

theorem regsExcept_of_regs_eq {ds : List Reg} {s t : State} (h : t.regs = s.regs) : RegsExcept ds s t :=
  fun r _ => congrArg (RegFile.get · r) h

theorem memExcept_of_mem_eq {cells : List Word} {s t : State} (h : t.mem = s.mem) : MemExcept cells s t :=
  fun a _ => congrArg (Memory.read · a) h

theorem outsideSame_setPc (s : State) (v : Word) : OutsideSame s (s.setPc v) :=
  ⟨memExcept_of_mem_eq rfl, rfl, ⟨rfl, rfl⟩, rfl, rfl, rfl⟩

/-- Everything a flag-setting instruction of the operate and address forms does besides giving its value (R116). -/
theorem writeResult_frame (d : Reg) (v : Word) (s : State) :
    (writeResult d v s).cond = conditionOf ((writeResult d v s).getReg d) ∧ RegsExcept [d] s (writeResult d v s) ∧
      (writeResult d v s).pc = s.pc ∧ OutsideSame s (writeResult d v s) := by
  refine ⟨?cond, regsExcept_setReg s d v, pc_writeResult d v s, outsideSame_setReg s d v⟩
  rw [cond_writeResult, getReg_writeResult_self, condOf_eq_conditionOf]

end Sys2Proof.Claims
end

section
/-! PROOFS. The instructions of 41_operate.md and 42_control.md, LEA, and the condition-code logic of 40_cycle.md
R115. -/

namespace Sys2Proof.Claims

open Sys2Proof.Machine

/-- Settles O10: `condOf` is the spec's condition, and `setcc` writes `cond` alone. -/
theorem setccClassifies : Obligations.SetccClassifies := by
  unfold Obligations.SetccClassifies
  intro v s
  exact ⟨condOf_eq_conditionOf v, rfl, regsExcept_of_regs_eq rfl, memExcept_of_mem_eq rfl, rfl, ⟨rfl, rfl⟩, rfl, rfl,
    rfl⟩

/-! ### Operate instructions and LEA: the value written, then `writeResult_frame` -/

/-- Settles O13. -/
theorem addRegisterResult : Obligations.AddRegisterResult := by
  unfold Obligations.AddRegisterResult
  intro d a b s
  refine ⟨_, rfl, ?sum, writeResult_frame d _ s⟩
  rw [getReg_writeResult_self, BitVec.toNat_add]

/-- Settles O14. -/
theorem addImmediateResult : Obligations.AddImmediateResult := by
  unfold Obligations.AddImmediateResult
  intro d a i s
  refine ⟨_, rfl, ?sum, writeResult_frame d _ s⟩
  rw [getReg_writeResult_self]
  exact toNat_add_sext (by decide) _ i

/-- Settles O15. -/
theorem andRegisterResult : Obligations.AndRegisterResult := by
  unfold Obligations.AndRegisterResult
  intro d a b s
  refine ⟨_, rfl, fun k => ?bit, writeResult_frame d _ s⟩
  rw [getReg_writeResult_self, BitVec.getLsbD_and]

theorem getLsbD_immOperand_low (i : BitVec 5) {k : Nat} (hk : k < 5) : (immOperand i).getLsbD k = i.getLsbD k := by
  have : k < 16 := by omega
  simp only [immOperand, sext, BitVec.getLsbD_signExtend, hk, this, decide_true, Bool.true_and, if_true]

theorem getLsbD_immOperand_high (i : BitVec 5) {k : Nat} (h5 : 5 ≤ k) (h16 : k < 16) :
    (immOperand i).getLsbD k = i.getLsbD 4 := by
  simp only [immOperand, sext, BitVec.getLsbD_signExtend, h16, Nat.not_lt.2 h5, decide_true, Bool.true_and, if_false,
    BitVec.msb_eq_getLsbD_last]

/-- Settles O16. -/
theorem andImmediateResult : Obligations.AndImmediateResult := by
  unfold Obligations.AndImmediateResult
  intro d a i s
  refine ⟨_, rfl, fun k hk => ?low, fun k h5 h16 => ?high, writeResult_frame d _ s⟩
  case low => rw [getReg_writeResult_self, BitVec.getLsbD_and, getLsbD_immOperand_low i hk]
  case high => rw [getReg_writeResult_self, BitVec.getLsbD_and, getLsbD_immOperand_high i h5 h16]

/-- Settles O17. -/
theorem notResult : Obligations.NotResult := by
  unfold Obligations.NotResult
  intro d a s
  refine ⟨_, rfl, ?value, writeResult_frame d _ s⟩
  rw [getReg_writeResult_self, BitVec.toNat_not]

/-- Settles O25. -/
theorem leaResult : Obligations.LeaResult := by
  unfold Obligations.LeaResult
  intro d o s
  refine ⟨_, rfl, ?address, writeResult_frame d _ s⟩
  rw [getReg_writeResult_self]
  exact toNat_add_sext (by decide) s.pc o

/-! ### Control transfer -/

theorem and_ne_zero_iff (m c : BitVec 3) :
    m &&& c ≠ 0#3 ↔ ∃ k, k < 3 ∧ m.getLsbD k = true ∧ c.getLsbD k = true := by
  revert m c; decide

theorem branchTaken_iff (m : BitVec 3) (s : State) :
    branchTaken m s = true ↔ ∃ k, k < 3 ∧ m.getLsbD k = true ∧ s.cond.getLsbD k = true := by
  rw [branchTaken, decide_eq_true_iff, and_ne_zero_iff]

/-- Where BR leaves `pc`. -/
def branchTarget (m : BitVec 3) (o : BitVec 9) (s : State) : Word := if branchTaken m s then pcRel9 s o else s.pc

theorem exec_br (m : BitVec 3) (o : BitVec 9) (s : State) :
    exec (.br m o) s = .next (s.setPc (branchTarget m o s)) := by
  rw [exec, execBr, branchTarget]
  split <;> rfl

/-- Settles O18: BR writes `pc` alone, and its test is a bit that mask and `cond` share. -/
theorem brResult : Obligations.BrResult := by
  unfold Obligations.BrResult
  intro m o s
  refine ⟨_, exec_br m o s, ?target, ?emptyMask, ?noCondition, ?anyCondition, rfl, regsExcept_of_regs_eq rfl,
    outsideSame_setPc s _⟩ <;> rw [State.pc_setPc, branchTarget]
  case target =>
    simp only [← branchTaken_iff]
    split
    · exact toNat_add_sext (by decide) s.pc o
    · rfl
  case emptyMask => rintro rfl; simp [branchTaken]
  case noCondition => intro h; simp [branchTaken, h]
  case anyCondition =>
    rintro rfl h
    have ones : 0b111 &&& s.cond = s.cond := BitVec.allOnes_and
    have taken : branchTaken 0b111 s = true := decide_eq_true (by rwa [ones])
    rw [if_pos taken, pcRel9]

/-- Settles O19. -/
theorem jmpResult : Obligations.JmpResult := by
  unfold Obligations.JmpResult
  exact fun b s => ⟨_, rfl, rfl, rfl, regsExcept_of_regs_eq rfl, outsideSame_setPc s _⟩

/-- A jump that saves the incremented `pc` writes `x[7]` and `pc` alone (R132, R133). -/
theorem link_frame (s : State) (target : Word) :
    RegsExcept [.r7] s ((s.setReg .r7 s.pc).setPc target) ∧ OutsideSame s ((s.setReg .r7 s.pc).setPc target) :=
  ⟨regsExcept_setReg s .r7 s.pc, outsideSame_setReg s .r7 s.pc⟩

/-- Settles O20. -/
theorem jsrResult : Obligations.JsrResult := by
  unfold Obligations.JsrResult
  intro o s
  exact ⟨_, rfl, rfl, toNat_add_sext (by decide) s.pc o, rfl, link_frame s _⟩

/-- Settles O21: the target is read after the save. -/
theorem jsrrResult : Obligations.JsrrResult := by
  unfold Obligations.JsrrResult
  intro b s
  exact ⟨_, rfl, rfl, State.getReg_setReg s .r7 b s.pc, rfl, link_frame s _⟩

end Sys2Proof.Claims
end

section
/-! PROOFS. `MemRead` (20_memory.md, section 1): it meets its description, what any number of reads leaves alone, and
the instructions of 43_load_store.md that rest on it. -/

namespace Sys2Proof.Machine

/-! ### States after reads -/

/-- The state after some number of memory reads, each in the memory and input that the one before left. -/
inductive AfterReads (s : State) : State → Prop where
  | refl : AfterReads s s
  | read {u : State} (a : Word) (h : AfterReads s u) : AfterReads s (memRead a u).2

namespace AfterReads

variable {s u : State}

theorem one (a : Word) (s : State) : AfterReads s (memRead a s).2 := .read a .refl

/-- Reads change memory and input alone. -/
theorem frame (h : AfterReads s u) : u = { s with mem := u.mem, inq := u.inq } := by
  induction h with
  | refl => rfl
  | read a h ih => rw [memRead_snd, ih]

theorem regs_eq (h : AfterReads s u) : u.regs = s.regs := by rw [h.frame]
theorem getReg_eq (h : AfterReads s u) (r : Reg) : u.getReg r = s.getReg r := congrArg (RegFile.get · r) h.regs_eq
theorem pc_eq (h : AfterReads s u) : u.pc = s.pc := by rw [h.frame]
theorem cond_eq (h : AfterReads s u) : u.cond = s.cond := by rw [h.frame]
theorem run_eq (h : AfterReads s u) : u.run = s.run := by rw [h.frame]
theorem out_eq (h : AfterReads s u) : u.out = s.out := by rw [h.frame]
theorem flushed_eq (h : AfterReads s u) : u.flushed = s.flushed := by rw [h.frame]
theorem hold_eq (h : AfterReads s u) : u.hold = s.hold := by rw [h.frame]
theorem params_eq (h : AfterReads s u) : u.params = s.params := by rw [h.frame]

theorem inq_suffix (h : AfterReads s u) : u.inq <:+ s.inq := by
  induction h with
  | refl => exact List.suffix_rfl
  | read a h ih => exact (inq_memRead_suffix a _).trans ih

theorem mem_read (h : AfterReads s u) {a : Word} (h1 : a ≠ kbsr) (h2 : a ≠ kbdr) : u.mem.read a = s.mem.read a := by
  induction h with
  | refl => rfl
  | read b h ih => rw [read_memRead _ h1 h2, ih]

theorem mem_wf (h : AfterReads s u) (hw : s.mem.wf) : u.mem.wf := by
  induction h with
  | refl => exact hw
  | read a h ih => exact wf_memRead a ih

end AfterReads
end Sys2Proof.Machine

namespace Sys2Proof.Claims

open Sys2Proof.Machine

/-! ### The relation `Reads` -/

theorem reads_other {a v : Word} {s u : State} (ha : a ≠ kbsr) :
    Reads a s v u ↔ v = s.mem.read a ∧ MemExcept [] s u ∧ u.inq = s.inq :=
  iff_of_eq (if_neg ha)

theorem reads_kbsr_nil {v : Word} {s u : State} (hq : s.inq = []) :
    Reads kbsr s v u ↔ v = 0x0000 ∧ u.mem.read kbsr = 0x0000 ∧ MemExcept [kbsr] s u ∧ u.inq = [] := by
  simp [Reads, kbsr, hq]

theorem reads_kbsr_cons {v : Word} {s u : State} {c : Byte} {q : List Byte} (hq : s.inq = c :: q) :
    Reads kbsr s v u ↔ v = 0x8000 ∧ u.mem.read kbsr = 0x8000 ∧ u.mem.read kbdr = byteWord c ∧
      MemExcept [kbsr, kbdr] s u ∧ u.inq = q := by
  simp [Reads, kbsr, kbdr, hq]

theorem reads_memRead (a : Word) (s : State) : Reads a s (memRead a s).1 (memRead a s).2 := by
  rcases memRead_cases a s with ⟨ha, h⟩ | ⟨rfl, hq, h⟩ | ⟨rfl, c, q, hq, h⟩
  · rw [reads_other ha, h]
    exact ⟨rfl, memExcept_of_mem_eq rfl, rfl⟩
  · rw [reads_kbsr_nil hq, h]
    exact ⟨rfl, Memory.read_write_self s.mem kbsr 0x0000, memExcept_memWrite kbsr 0x0000 s, hq⟩
  · rw [reads_kbsr_cons hq, h]
    refine ⟨rfl, ?status, ?data, fun a ha => ?frame, rfl⟩
    case status => exact (Memory.read_write_ne _ _ (by decide)).trans (Memory.read_write_self _ _ _)
    case data => exact (Memory.read_write_self _ _ _).trans (zext8_eq_byteWord c)
    case frame =>
      obtain ⟨notStatus, notData⟩ : a ≠ kbsr ∧ a ≠ kbdr := by simpa using ha
      exact (Memory.read_write_ne _ _ notData).trans (Memory.read_write_ne _ _ notStatus)

/-- A read is said of the memory and the input it leaves alone. -/
theorem Reads.congr {a v : Word} {s u t : State} (h : Reads a s v u) (hm : t.mem = u.mem) (hi : t.inq = u.inq) :
    Reads a s v t := by
  simpa only [Reads, MemExcept, hm, hi] using h

/-- Settles O45. -/
theorem memReadPolls : Obligations.MemReadPolls := by
  unfold Obligations.MemReadPolls
  intro a s
  exact ⟨reads_memRead a s, regsExcept_of_regs_eq (regs_memRead a s), pc_memRead a s, cond_memRead a s,
    ⟨out_memRead a s, flushed_memRead a s⟩, run_memRead a s, hold_memRead a s, params_memRead a s⟩

/-- Settles O46: the read of 0xFE00 polls first, and a poll writes 0xFE02 only when a byte is pending. -/
theorem keyboardCellsReadBack : Obligations.KeyboardCellsReadBack := by
  unfold Obligations.KeyboardCellsReadBack
  have notStatus : (0xFE02 : Word) ≠ kbsr := by decide
  have kept (v : Word) (s : State) : (memWrite 0xFE02 v s).mem.read 0xFE02 = v := Memory.read_write_self _ _ _
  refine ⟨fun v s => ?status, fun v s => ?data, fun v s => ?dataAfterPoll⟩
  case status =>
    cases hq : s.inq with
    | nil => exact congrArg Prod.fst (memRead_kbsr_nil (s := memWrite kbsr v s) hq)
    | cons c q => exact congrArg Prod.fst (memRead_kbsr_cons (s := memWrite kbsr v s) hq)
  case data => rw [memRead_other _ notStatus, kept]
  case dataAfterPoll =>
    rw [memRead_other _ notStatus]
    have poll := reads_memRead kbsr (memWrite 0xFE02 v s)
    cases hq : s.inq with
    | nil =>
      obtain ⟨-, -, others, -⟩ := (reads_kbsr_nil (s := memWrite 0xFE02 v s) hq).1 poll
      exact (others _ (by decide)).trans (kept v s)
    | cons c q =>
      obtain ⟨-, -, taken, -⟩ := (reads_kbsr_cons (s := memWrite 0xFE02 v s) hq).1 poll
      exact taken

/-! ### Loads -/

/-- What a load does after its reads (R140, R141, R142). -/
theorem load_frame {s u : State} (d : Reg) (v : Word) (h : AfterReads s u) :
    (writeResult d v u).getReg d = v ∧ (writeResult d v u).cond = conditionOf v ∧ RegsExcept [d] s (writeResult d v u) ∧
      (writeResult d v u).pc = s.pc ∧ OutputSame s (writeResult d v u) ∧ ModeSame s (writeResult d v u) := by
  refine ⟨getReg_writeResult_self d v u, condOf_eq_conditionOf v, fun r hr => ?reg, h.pc_eq, ⟨h.out_eq, h.flushed_eq⟩,
    h.run_eq, h.hold_eq, h.params_eq⟩
  rw [getReg_writeResult_ne v u (List.ne_of_not_mem_cons hr), h.getReg_eq]

/-- Settles O22. -/
theorem ldResult : Obligations.LdResult := by
  unfold Obligations.LdResult
  intro d o s
  exact ⟨_, finishLoad d (memRead (pcRel9 s o) s), (reads_memRead _ s).congr rfl rfl, rfl, load_frame d _ (.one _ s)⟩

/-- Settles O23: the second read is made in the state of the first. -/
theorem ldiResult : Obligations.LdiResult := by
  unfold Obligations.LdiResult
  intro d o s
  have pointer := reads_memRead (pcRel9 s o) s
  generalize hr : memRead (pcRel9 s o) s = r at pointer
  have after : AfterReads s r.2 := hr ▸ .one _ s
  refine ⟨r.1, r.2, _, finishLoad d (memRead r.1 r.2), pointer, (reads_memRead _ _).congr rfl rfl, ?answers,
    load_frame d _ (.read _ after)⟩
  rw [exec, execLdi, hr]

/-- Settles O24. -/
theorem ldrResult : Obligations.LdrResult := by
  unfold Obligations.LdrResult
  intro d b o s
  exact ⟨_, finishLoad d (memRead (baseOff6 s b o) s), (reads_memRead _ s).congr rfl rfl, rfl,
    load_frame d _ (.one _ s)⟩

/-! ### Stores -/

/-- What a store leaves alone besides memory and input, after the reads it needs (R144, R145, R146). -/
theorem store_frame {s u : State} (a v : Word) (h : AfterReads s u) :
    RegsExcept [] s (memWrite a v u) ∧ (memWrite a v u).pc = s.pc ∧ (memWrite a v u).cond = s.cond ∧
      OutputSame s (memWrite a v u) ∧ ModeSame s (memWrite a v u) :=
  ⟨regsExcept_of_regs_eq h.regs_eq, h.pc_eq, h.cond_eq, ⟨h.out_eq, h.flushed_eq⟩, h.run_eq, h.hold_eq, h.params_eq⟩

/-- Settles O26. -/
theorem stResult : Obligations.StResult := by
  unfold Obligations.StResult
  intro r o s
  obtain ⟨regs, pc, cond, output, mode⟩ := store_frame (pcRel9 s o) (s.getReg r) (AfterReads.refl (s := s))
  exact ⟨_, rfl, Memory.read_write_self _ _ _, memExcept_memWrite _ _ s, rfl, regs, pc, cond, rfl, output, mode⟩

/-- Settles O27: the store is made in the state the read of the pointer left. -/
theorem stiResult : Obligations.StiResult := by
  unfold Obligations.StiResult
  intro r o s
  exact ⟨_, _, _, reads_memRead _ s, rfl, rfl, Memory.read_write_self _ _ _, memExcept_memWrite _ _ _, rfl,
    store_frame _ _ (.one _ s)⟩

/-- Settles O28. -/
theorem strResult : Obligations.StrResult := by
  unfold Obligations.StrResult
  intro r b o s
  obtain ⟨regs, pc, cond, output, mode⟩ := store_frame (baseOff6 s b o) (s.getReg r) (AfterReads.refl (s := s))
  exact ⟨_, rfl, Memory.read_write_self _ _ _, memExcept_memWrite _ _ s, rfl, regs, pc, cond, rfl, output, mode⟩

end Sys2Proof.Claims
end

section
/-! PROOFS. TRAP and its routines (44_trap.md) and the two reserved opcodes (45_reserved.md). -/

namespace Sys2Proof.Machine

/-! ### What the string loop leaves alone, a field at a time -/

section
variable {emit : Word → List Byte} {n : Nat} {a : Word} {s t : State} (h : stringLoop emit n a s = some t)
include h

theorem regs_stringLoop : t.regs = s.regs := by rw [stringLoop_frame h]
theorem pc_stringLoop : t.pc = s.pc := by rw [stringLoop_frame h]
theorem cond_stringLoop : t.cond = s.cond := by rw [stringLoop_frame h]
theorem run_stringLoop : t.run = s.run := by rw [stringLoop_frame h]
theorem hold_stringLoop : t.hold = s.hold := by rw [stringLoop_frame h]
theorem params_stringLoop : t.params = s.params := by rw [stringLoop_frame h]

end

/-! ### The string loop on a string clear of 0xFE00 (R154, R156) -/

/-- What the loop sends for the `n` cells from `a` on. -/
def cellBytes (emit : Word → List Byte) (m : Memory) (a : Word) (n : Nat) : List Byte :=
  (List.range n).flatMap fun k => emit (m.read (a + BitVec.ofNat 16 k))

theorem add_ofNat_succ (a : Word) (k : Nat) : a + BitVec.ofNat 16 (k + 1) = a + 1 + BitVec.ofNat 16 k := by
  rw [BitVec.ofNat_add, BitVec.add_assoc, BitVec.add_comm (BitVec.ofNat 16 k)]
  rfl

theorem cellBytes_succ (emit : Word → List Byte) (m : Memory) (a : Word) (n : Nat) :
    cellBytes emit m a (n + 1) = emit (m.read a) ++ cellBytes emit m (a + 1) n := by
  have here : a + BitVec.ofNat 16 0 = a := BitVec.add_zero a
  rw [cellBytes, List.range_succ_eq_map, List.flatMap_cons, List.flatMap_map, here,
    funext fun k => congrArg (fun b => emit (m.read b)) (add_ofNat_succ a k)]
  rfl

theorem outPutAll_append (bs cs : List Byte) (s : State) : outPutAll cs (outPutAll bs s) = outPutAll (bs ++ cs) s := by
  simp only [outPutAll, State.setOut, List.append_assoc]

/-- The loop over `n` non-zero cells and a zero cell, none of them KBSR: it only sends. -/
theorem stringLoop_plain (emit : Word → List Byte) {n : Nat} {a : Word} {s : State}
    (clear : ∀ k, k ≤ n → a + BitVec.ofNat 16 k ≠ kbsr)
    (nonzero : ∀ k, k < n → s.mem.read (a + BitVec.ofNat 16 k) ≠ 0x0000)
    (zero : s.mem.read (a + BitVec.ofNat 16 n) = 0x0000) :
    stringLoop emit (n + 1) a s = some (outPutAll (cellBytes emit s.mem a n) s) := by
  induction n generalizing a s with
  | zero =>
    have here : a + BitVec.ofNat 16 0 = a := BitVec.add_zero a
    rw [here] at zero
    rw [stringLoop, memRead_other s (here ▸ clear 0 le_rfl), if_pos zero]
    simp [cellBytes, outPutAll, State.setOut]
  | succ n ih =>
    have here : a + BitVec.ofNat 16 0 = a := BitVec.add_zero a
    rw [stringLoop, memRead_other s (here ▸ clear 0 (Nat.zero_le _)), if_neg (here ▸ nonzero 0 (Nat.succ_pos n)), ih,
      mem_outPutAll, outPutAll_append, cellBytes_succ]
    case clear => exact fun k hk => add_ofNat_succ a k ▸ clear (k + 1) (Nat.succ_le_succ hk)
    case nonzero => exact fun k hk => add_ofNat_succ a k ▸ nonzero (k + 1) (Nat.succ_lt_succ hk)
    case zero => exact add_ofNat_succ a n ▸ zero

end Sys2Proof.Machine

namespace Sys2Proof.Claims

open Sys2Proof.Machine

/-! ### The loop as a relation -/

/-- A loop that ended is a run of the rule, and it has appended what the rule sends. -/
theorem stringRun_of_stringLoop {emit : Word → List Byte} {n : Nat} {a : Word} {s t : State}
    (h : stringLoop emit n a s = some t) : ∃ bs, StringRun emit a s bs t ∧ t.out = s.out ++ bs := by
  induction n generalizing a s with
  | zero => cases h
  | succ n ih =>
    have read := reads_memRead a s
    rw [stringLoop] at h
    split at h
    · rename_i zero
      cases h
      rw [zero] at read
      exact ⟨[], .stop read, by simp⟩
    · rename_i nonzero
      obtain ⟨bs, run, out⟩ := ih h
      refine ⟨_, .more (read.congr (mem_outPutAll _ _) (inq_outPutAll _ _)) nonzero run, ?_⟩
      rw [out, out_outPutAll, out_memRead, List.append_assoc]

/-- PUTS and PUTSP alike, for what they send for a cell. -/
theorem stringRoutine_result (emit : Word → List Byte) (s : State) :
    ∃ bs u t, StringRun emit (s.getReg .r0) s bs u ∧ stringRoutine emit s = .next t ∧
      t.out = s.out ++ bs ∧ t.flushed = t.out.length ∧ t.inq = u.inq ∧ MemExcept [] u t ∧
      RegsExcept [] s t ∧ t.pc = s.pc ∧ t.cond = s.cond ∧ ModeSame s t := by
  obtain ⟨u, loop, answer⟩ := stringRoutine_eq emit s
  obtain ⟨bs, run, out⟩ := stringRun_of_stringLoop loop
  have regs : RegsExcept [] s u := regsExcept_of_regs_eq (regs_stringLoop loop)
  have pc : u.pc = s.pc := pc_stringLoop loop
  have cond : u.cond = s.cond := cond_stringLoop loop
  have mode : ModeSame s u := ⟨run_stringLoop loop, hold_stringLoop loop, params_stringLoop loop⟩
  exact ⟨bs, u, outFlush u, run, answer, out, rfl, rfl, memExcept_of_mem_eq rfl, regs, pc, cond, mode⟩

/-- Settles O31. -/
theorem putsResult : Obligations.PutsResult := by
  unfold Obligations.PutsResult
  rw [← putsBytes_eq_putsSends]
  exact stringRoutine_result putsBytes

/-- Settles O34. -/
theorem putspResult : Obligations.PutspResult := by
  unfold Obligations.PutspResult
  rw [← putspBytes_eq_putspSends]
  exact stringRoutine_result putspBytes

/-- Settles O32: the loop ends after the zero cell, and more room does not change where it ends. -/
theorem putsSendsStringCells : Obligations.PutsSendsStringCells := by
  unfold Obligations.PutsSendsStringCells
  intro s n clear nonzero zero
  obtain ⟨u, loop, answer⟩ := stringRoutine_eq putsBytes s
  have plain := stringLoop_plain putsBytes clear nonzero zero
  have same : some u = some (outPutAll (cellBytes putsBytes s.mem (s.getReg .r0) n) s) := by
    rw [← stringLoop_mono loop (Nat.le_max_left _ (n + 1)), ← stringLoop_mono plain (Nat.le_max_right _ _)]
  cases same
  refine ⟨_, answer, ?sent, rfl, memExcept_of_mem_eq rfl, rfl, regsExcept_of_regs_eq rfl, rfl, rfl, rfl, rfl, rfl⟩
  rw [← funext fun k => lowByte_eq_ofNat (s.mem.read (s.getReg .r0 + BitVec.ofNat 16 k)), List.map_eq_flatMap]
  rfl

/-! ### Character input -/

/-- GETC with a byte pending, from its wait on (R152). -/
theorem getcTake_result {s : State} {c : Byte} {q : List Byte} (hq : s.inq = c :: q) :
    (getcTake s).getReg .r0 = byteWord c ∧ (getcTake s).inq = q ∧ RegsExcept [.r0] s (getcTake s) ∧
      (getcTake s).pc = s.pc ∧ (getcTake s).cond = s.cond ∧ MemExcept [] s (getcTake s) ∧ OutputSame s (getcTake s) ∧
      (getcTake s).run = s.run ∧ (getcTake s).hold = none ∧ (getcTake s).params = s.params := by
  rw [getcTake_cons hq, zext8_eq_byteWord]
  exact ⟨rfl, rfl, regsExcept_setReg s .r0 _, rfl, rfl, memExcept_of_mem_eq rfl, ⟨rfl, rfl⟩, rfl, rfl, rfl⟩

/-- IN with a byte pending, from its wait on (R155). -/
theorem inTakeEcho_result {s : State} {c : Byte} {q : List Byte} (hq : s.inq = c :: q) :
    (inTakeEcho s).getReg .r0 = byteWord c ∧ (inTakeEcho s).inq = q ∧ RegsExcept [.r0] s (inTakeEcho s) ∧
      (inTakeEcho s).pc = s.pc ∧ (inTakeEcho s).cond = s.cond ∧ MemExcept [] s (inTakeEcho s) ∧
      (inTakeEcho s).out = s.out ++ [c] ∧ (inTakeEcho s).flushed = (inTakeEcho s).out.length ∧
      (inTakeEcho s).run = s.run ∧ (inTakeEcho s).hold = none ∧ (inTakeEcho s).params = s.params := by
  rw [inTakeEcho_cons hq, zext8_eq_byteWord]
  exact ⟨rfl, rfl, regsExcept_setReg s .r0 _, rfl, rfl, memExcept_of_mem_eq rfl, rfl, rfl, rfl, rfl, rfl⟩

/-- Settles O29. -/
theorem getcResult : Obligations.GetcResult := by
  unfold Obligations.GetcResult
  refine ⟨fun s c q hq => ⟨_, rfl, getcTake_result hq⟩, fun s hq => ⟨s.setHold (some .inGetc), ?answers, rfl, ?frame⟩⟩
  case answers => rw [exec, execTrapGetc, getcTake_nil hq]
  case frame => exact ⟨regsExcept_of_regs_eq rfl, rfl, rfl, memExcept_of_mem_eq rfl, rfl, ⟨rfl, rfl⟩, rfl, rfl⟩

/-- Settles O33: IN is its wait after the prompt. -/
theorem inResult : Obligations.InResult := by
  unfold Obligations.InResult
  refine ⟨fun s c q hq => ⟨inRoutine s, rfl, ?taken⟩,
    fun s hq => ⟨(outPutAll s.params.inPrompt s).setHold (some .inIn), ?answers, rfl, rfl, rfl, ?frame⟩⟩
  case taken =>
    obtain ⟨reg, inq, regs, pc, cond, mem, out, flushed, mode⟩ :=
      inTakeEcho_result (s := outPutAll s.params.inPrompt s) hq
    exact ⟨reg, inq, out, flushed, regs, pc, cond, mem, mode⟩
  case answers => rw [exec, execTrapIn, inRoutine, inTakeEcho_nil (s := outPutAll s.params.inPrompt s) hq]
  case frame => exact ⟨regsExcept_of_regs_eq rfl, rfl, rfl, memExcept_of_mem_eq rfl, rfl, rfl, rfl⟩

/-! ### Character output and HALT -/

theorem decode_trap_word {w : Word} (hop : w.toNat / 0x1000 = 0xF) :
    decode w = decodeTrap (BitVec.ofNat 8 (w.toNat % 0x100)) := by
  rw [decode_of_trapOpcode hop, fieldTrapvect8_eq_ofNat]

/-- Settles O30. -/
theorem outResult : Obligations.OutResult := by
  unfold Obligations.OutResult
  refine ⟨fun w hop hcode => ?word, fun s => ⟨_, rfl, ?out, rfl, ?frame⟩⟩
  case word => rw [decode_trap_word hop, hcode]; rfl
  case out => rw [← lowByte_eq_ofNat]; rfl
  case frame =>
    exact ⟨regsExcept_of_regs_eq rfl, rfl, rfl, memExcept_of_mem_eq rfl, rfl, rfl, rfl, rfl⟩

/-- Settles O35. -/
theorem haltResult : Obligations.HaltResult := by
  unfold Obligations.HaltResult
  refine ⟨fun w hop hcode => ?word, fun s => ⟨_, rfl, rfl, rfl, rfl, ?frame⟩⟩
  case word => rw [decode_trap_word hop, hcode]; rfl
  case frame =>
    exact ⟨regsExcept_of_regs_eq rfl, rfl, rfl, memExcept_of_mem_eq rfl, rfl, rfl, rfl, rfl⟩

/-! ### The dispatch on the code -/

theorem routineCode_cases {v : BitVec 8} (h : isRoutineCode v = true) :
    v = 0x20#8 ∨ v = 0x21#8 ∨ v = 0x22#8 ∨ v = 0x23#8 ∨ v = 0x24#8 ∨ v = 0x25#8 := by
  revert v; decide

/-- The generic row's meaning is that of the row that the decoder gives its code (R150). -/
theorem exec_trap (v : BitVec 8) (s : State) : exec (.trap v) s = exec (decodeTrap v) s := by
  by_cases h : isRoutineCode v = true
  · obtain rfl | rfl | rfl | rfl | rfl | rfl := routineCode_cases h <;> rfl
  · rw [decodeTrap_of_not_routineCode (Bool.eq_false_iff.2 h)]

/-- Settles O37: the six codes by computation, and the others by `exec_trap_of_not_routineCode`. -/
theorem trapDispatchesOnCode : Obligations.TrapDispatchesOnCode := by
  unfold Obligations.TrapDispatchesOnCode
  intro v s
  by_cases h : isRoutineCode v = true
  · obtain rfl | rfl | rfl | rfl | rfl | rfl := routineCode_cases h <;> rfl
  · have undefined := Bool.eq_false_iff.2 h
    have range := isRoutineCode_eq_false_iff.1 undefined
    rw [exec_trap_of_not_routineCode undefined]
    split
    case h_7 => rfl
    all_goals omega

/-! ### The reserved opcodes -/

theorem exec_reserved {i : Instr} (h : isReserved i) (s : State) : exec i s = .next (raiseIllegalOpcode s) := by
  obtain rfl | rfl := h <;> rfl

/-- Settles O40. -/
theorem reservedOpcodesFault : Obligations.ReservedOpcodesFault := by
  unfold Obligations.ReservedOpcodesFault
  intro i s reserved
  exact ⟨_, exec_reserved reserved s, rfl, regsExcept_of_regs_eq rfl, rfl, rfl, memExcept_of_mem_eq rfl, rfl,
    ⟨rfl, rfl⟩, rfl, rfl, rfl⟩

end Sys2Proof.Claims
end

section
/-! PROOFS. What an instruction can do, once for all of them (10_state.md R36, 40_cycle.md R112, R116): the kinds of
effect, what each leaves alone, and the statements that hold of every instruction. -/

namespace Sys2Proof.Machine

open Sys2Proof.Claims

/-! ### What the input routines leave alone -/

theorem getcTake_frame (s : State) :
    getcTake s = { s with regs := (getcTake s).regs, inq := (getcTake s).inq, hold := (getcTake s).hold } := by
  rcases getcTake_cases s with ⟨_, h⟩ | ⟨_, _, _, h⟩ <;> rw [h] <;> rfl

@[simp] theorem pc_getcTake (s : State) : (getcTake s).pc = s.pc := by rw [getcTake_frame]
@[simp] theorem cond_getcTake (s : State) : (getcTake s).cond = s.cond := by rw [getcTake_frame]
@[simp] theorem run_getcTake (s : State) : (getcTake s).run = s.run := by rw [getcTake_frame]
@[simp] theorem mem_getcTake (s : State) : (getcTake s).mem = s.mem := by rw [getcTake_frame]
@[simp] theorem out_getcTake (s : State) : (getcTake s).out = s.out := by rw [getcTake_frame]
@[simp] theorem flushed_getcTake (s : State) : (getcTake s).flushed = s.flushed := by rw [getcTake_frame]
@[simp] theorem params_getcTake (s : State) : (getcTake s).params = s.params := by rw [getcTake_frame]

theorem inTakeEcho_frame (s : State) :
    inTakeEcho s = { s with
      regs := (inTakeEcho s).regs, inq := (inTakeEcho s).inq, out := (inTakeEcho s).out,
      flushed := (inTakeEcho s).flushed, hold := (inTakeEcho s).hold } := by
  rcases inTakeEcho_cases s with ⟨_, h⟩ | ⟨_, _, _, h⟩ <;> rw [h] <;> rfl

@[simp] theorem pc_inTakeEcho (s : State) : (inTakeEcho s).pc = s.pc := by rw [inTakeEcho_frame]
@[simp] theorem cond_inTakeEcho (s : State) : (inTakeEcho s).cond = s.cond := by rw [inTakeEcho_frame]
@[simp] theorem run_inTakeEcho (s : State) : (inTakeEcho s).run = s.run := by rw [inTakeEcho_frame]
@[simp] theorem mem_inTakeEcho (s : State) : (inTakeEcho s).mem = s.mem := by rw [inTakeEcho_frame]
@[simp] theorem params_inTakeEcho (s : State) : (inTakeEcho s).params = s.params := by rw [inTakeEcho_frame]

theorem getReg_getcTake_ne (s : State) {r : Reg} (h : r ≠ .r0) : (getcTake s).getReg r = s.getReg r := by
  rcases getcTake_cases s with ⟨_, e⟩ | ⟨_, _, _, e⟩ <;> simp [e, h]

theorem getReg_inTakeEcho_ne (s : State) {r : Reg} (h : r ≠ .r0) : (inTakeEcho s).getReg r = s.getReg r := by
  rcases inTakeEcho_cases s with ⟨_, e⟩ | ⟨_, _, _, e⟩ <;> simp [e, h]

theorem inq_getcTake_suffix (s : State) : (getcTake s).inq <:+ s.inq := by
  rcases getcTake_cases s with ⟨_, e⟩ | ⟨_, _, hq, e⟩ <;> simp [*]

theorem inq_inTakeEcho_suffix (s : State) : (inTakeEcho s).inq <:+ s.inq := by
  rcases inTakeEcho_cases s with ⟨_, e⟩ | ⟨_, _, hq, e⟩ <;> simp [*]

theorem out_inTakeEcho_prefix (s : State) : s.out <+: (inTakeEcho s).out := by
  rcases inTakeEcho_cases s with ⟨_, e⟩ | ⟨_, _, _, e⟩ <;> simp [e]

/-! ### The kinds of effect -/

/-- What the instruction `i` can leave from the state `s`. Memory reads come first, where there are any. -/
inductive Effect (i : Instr) (s : State) : State → Prop where
  /-- A register and the condition of what it holds are written. -/
  | result {d : Reg} {u : State} (v : Word) (hd : flagDest i = some d) (hu : AfterReads s u)
      (reading : readsMemory i = false → u = s) : Effect i s (writeResult d v u)
  /-- `pc` is written. -/
  | jump (target : Word) (hd : flagDest i = none) (hi : writesPc i = true) : Effect i s (s.setPc target)
  /-- The incremented `pc` is saved, then `pc` is written. -/
  | link (target : Word) (hd : flagDest i = none) (hi : writesPc i = true) (hr : regsWritten i = [.r7]) :
      Effect i s ((s.setReg .r7 s.pc).setPc target)
  /-- A cell is written. -/
  | store {a : Word} {u : State} (v : Word) (hd : flagDest i = none) (ha : cellsStored s i = [a]) (hu : AfterReads s u)
      (reading : readsMemory i = false → u = s) : Effect i s (memWrite a v u)
  | getc (hi : i = .trapGetc) : Effect i s (getcTake s)
  | inEcho (hi : i = .trapIn) : Effect i s (inTakeEcho (outPutAll s.params.inPrompt s))
  | out (hi : i = .trapOut) : Effect i s (outRoutine s)
  | string {emit : Word → List Byte} {n : Nat} {a : Word} {u : State} (hi : i = .trapPuts ∨ i = .trapPutsp)
      (loop : stringLoop emit n a s = some u) : Effect i s (outFlush u)
  | halt (hi : i = .trapHalt) : Effect i s (haltRoutine s)
  | reserved (hi : isReserved i) : Effect i s (raiseIllegalOpcode s)
  /-- A trap code that names no routine. -/
  | nothing {v : BitVec 8} (hi : i = .trap v) : Effect i s s

/-- Every instruction that a word encodes answers a next state, by one of these effects. -/
theorem exec_effect {i : Instr} (hwf : i.wf = true) (s : State) : ∃ t, exec i s = .next t ∧ Effect i s t := by
  cases i with
  | addReg d a b => exact ⟨_, rfl, .result _ rfl .refl fun _ => rfl⟩
  | addImm d a o => exact ⟨_, rfl, .result _ rfl .refl fun _ => rfl⟩
  | andReg d a b => exact ⟨_, rfl, .result _ rfl .refl fun _ => rfl⟩
  | andImm d a o => exact ⟨_, rfl, .result _ rfl .refl fun _ => rfl⟩
  | not d a => exact ⟨_, rfl, .result _ rfl .refl fun _ => rfl⟩
  | lea d o => exact ⟨_, rfl, .result _ rfl .refl fun _ => rfl⟩
  | br m o => exact ⟨_, exec_br m o s, .jump _ rfl rfl⟩
  | jmp b => exact ⟨_, rfl, .jump _ rfl rfl⟩
  | jsr o => exact ⟨_, rfl, .link _ rfl rfl rfl⟩
  | jsrr b => exact ⟨_, rfl, .link _ rfl rfl rfl⟩
  | ld d o => exact ⟨_, rfl, .result _ rfl (.one _ s) nofun⟩
  | ldi d o => exact ⟨_, rfl, .result _ rfl (.read _ (.one _ s)) nofun⟩
  | ldr d b o => exact ⟨_, rfl, .result _ rfl (.one _ s) nofun⟩
  | st r o => exact ⟨_, rfl, .store _ rfl rfl .refl fun _ => rfl⟩
  | sti r o => exact ⟨_, rfl, .store _ rfl rfl (.one _ s) nofun⟩
  | str r b o => exact ⟨_, rfl, .store _ rfl rfl .refl fun _ => rfl⟩
  | trap v => exact ⟨s, exec_trap_of_not_routineCode (by simpa [Instr.wf] using hwf) s, .nothing rfl⟩
  | trapGetc => exact ⟨_, rfl, .getc rfl⟩
  | trapOut => exact ⟨_, rfl, .out rfl⟩
  | trapPuts =>
    obtain ⟨u, loop, answer⟩ := stringRoutine_eq putsBytes s
    exact ⟨_, answer, .string (.inl rfl) loop⟩
  | trapIn => exact ⟨_, rfl, .inEcho rfl⟩
  | trapPutsp =>
    obtain ⟨u, loop, answer⟩ := stringRoutine_eq putspBytes s
    exact ⟨_, answer, .string (.inr rfl) loop⟩
  | trapHalt => exact ⟨_, rfl, .halt rfl⟩
  | rti => exact ⟨_, rfl, .reserved (.inl rfl)⟩
  | res => exact ⟨_, rfl, .reserved (.inr rfl)⟩

/-- A term no word encodes has the meaning of one that some word does. -/
theorem exists_wf_exec_eq (i : Instr) :
    ∃ j : Instr, j.wf = true ∧ (∀ s, exec i s = exec j s) ∧ flagDest j = flagDest i ∧ (isTrap i → isTrap j) := by
  by_cases hwf : i.wf = true
  · exact ⟨i, hwf, fun _ => rfl, rfl, id⟩
  · cases i
    case trap v =>
      have routine : isRoutineCode v = true := by simpa [Instr.wf] using hwf
      refine ⟨decodeTrap v, wf_decodeTrap v, exec_trap v, ?dest, fun _ => ?kind⟩
      case dest => obtain rfl | rfl | rfl | rfl | rfl | rfl := routineCode_cases routine <;> rfl
      case kind =>
        obtain rfl | rfl | rfl | rfl | rfl | rfl := routineCode_cases routine <;> simp [isTrap, decodeTrap]
    all_goals exact absurd rfl hwf

/-- No instruction stops the machine, whatever the state. -/
theorem exec_answers (i : Instr) (s : State) : ∃ t, exec i s = .next t := by
  obtain ⟨j, hwf, same, -, -⟩ := exists_wf_exec_eq i
  obtain ⟨t, answer, -⟩ := exec_effect hwf s
  exact ⟨t, (same s).trans answer⟩

theorem effect_of_exec {i : Instr} {s t : State} (hwf : i.wf = true) (h : exec i s = .next t) : Effect i s t := by
  obtain ⟨t', answer, effect⟩ := exec_effect hwf s
  cases h.symm.trans answer
  exact effect

namespace Effect

variable {i : Instr} {s t : State}

theorem pc_eq (e : Effect i s t) (h : writesPc i = false) : t.pc = s.pc := by
  cases e with
  | result v hd hu reading => exact hu.pc_eq
  | jump target hd hi | link target hd hi => exact absurd (hi.symm.trans h) nofun
  | store v hd ha hu reading => exact hu.pc_eq
  | string hi loop => exact (pc_outFlush _).trans (pc_stringLoop loop)
  | getc hi | inEcho hi => simp
  | out hi | halt hi | reserved hi | nothing hi => rfl

theorem regsWritten_of_flagDest {d : Reg} (h : flagDest i = some d) : regsWritten i = [d] := by
  cases i <;> cases h <;> rfl

theorem regs (e : Effect i s t) : RegsExcept (regsWritten i) s t := by
  cases e with
  | result v hd hu reading =>
    obtain ⟨-, -, others, -⟩ := load_frame _ v hu
    exact regsWritten_of_flagDest hd ▸ others
  | link target hd hi hr =>
    rw [hr]
    exact (link_frame s target).1
  | store v hd ha hu reading => exact regsExcept_of_regs_eq hu.regs_eq
  | string hi loop => exact regsExcept_of_regs_eq ((regs_outFlush _).trans (regs_stringLoop loop))
  | getc hi => subst hi; exact fun r hr => getReg_getcTake_ne s (List.ne_of_not_mem_cons hr)
  | inEcho hi => subst hi; exact fun r hr => getReg_inTakeEcho_ne _ (List.ne_of_not_mem_cons hr)
  | jump target hd hi => exact regsExcept_of_regs_eq rfl
  | out hi | halt hi | reserved hi | nothing hi => exact regsExcept_of_regs_eq rfl

/-- The flags are those of the destination, or as they were (R116). -/
theorem cond_cases (e : Effect i s t) :
    (∃ d, flagDest i = some d ∧ t.cond = condOf (t.getReg d)) ∨ (flagDest i = none ∧ t.cond = s.cond) := by
  cases e with
  | result v hd hu reading => exact .inl ⟨_, hd, by simp⟩
  | jump target hd | link target hd => exact .inr ⟨hd, rfl⟩
  | store v hd ha hu reading => exact .inr ⟨hd, hu.cond_eq⟩
  | string hi loop => obtain rfl | rfl := hi <;> exact .inr ⟨rfl, (cond_outFlush _).trans (cond_stringLoop loop)⟩
  | getc hi | inEcho hi => subst hi; exact .inr ⟨rfl, by simp⟩
  | reserved hi => obtain rfl | rfl := hi <;> exact .inr ⟨rfl, rfl⟩
  | out hi | halt hi | nothing hi => subst hi; exact .inr ⟨rfl, rfl⟩

theorem run_cases (e : Effect i s t) :
    t.run = s.run ∨ (i = .trapHalt ∧ t.run = .halted) ∨ (isReserved i ∧ t.run = .faulted) := by
  cases e with
  | result v hd hu reading => exact .inl hu.run_eq
  | store v hd ha hu reading => exact .inl hu.run_eq
  | string hi loop => exact .inl ((run_outFlush _).trans (run_stringLoop loop))
  | getc hi | inEcho hi => exact .inl (by simp)
  | halt hi => exact .inr (.inl ⟨hi, rfl⟩)
  | reserved hi => exact .inr (.inr ⟨hi, rfl⟩)
  | jump target hd hi | link target hd hi hr => exact .inl rfl
  | out hi | nothing hi => exact .inl rfl

theorem hold_eq (e : Effect i s t) (h : ¬ takesInput i) : t.hold = s.hold := by
  cases e with
  | result v hd hu reading => exact hu.hold_eq
  | store v hd ha hu reading => exact hu.hold_eq
  | string hi loop => exact (hold_outFlush _).trans (hold_stringLoop loop)
  | getc hi => exact absurd (.inl hi) h
  | inEcho hi => exact absurd (.inr hi) h
  | jump target hd hi | link target hd hi hr => rfl
  | out hi | halt hi | reserved hi | nothing hi => rfl

theorem params_eq (e : Effect i s t) : t.params = s.params := by
  cases e with
  | result v hd hu reading => exact hu.params_eq
  | store v hd ha hu reading => exact hu.params_eq
  | string hi loop => exact (params_outFlush _).trans (params_stringLoop loop)
  | getc hi | inEcho hi => simp
  | jump target hd hi | link target hd hi hr => rfl
  | out hi | halt hi | reserved hi | nothing hi => rfl

/-! ### Memory -/

/-- Outside the cell that is stored, only the keyboard cells change, and they by a poll (20_memory.md R53). -/
theorem mem_read (e : Effect i s t) {a : Word} (ha : a ∉ cellsStored s i) (h1 : a ≠ kbsr) (h2 : a ≠ kbdr) :
    t.mem.read a = s.mem.read a := by
  cases e with
  | result v hd hu reading => exact hu.mem_read h1 h2
  | store v hd hs hu reading =>
    rw [hs] at ha
    rw [mem_memWrite, Memory.read_write_ne _ _ (List.ne_of_not_mem_cons ha), hu.mem_read h1 h2]
  | string hi loop => exact (stringLoop_read loop h1 h2 :)
  | getc hi | inEcho hi => simp
  | jump target hd hi | link target hd hi hr => rfl
  | out hi | halt hi | reserved hi | nothing hi => rfl

theorem mem_of_not_reading (e : Effect i s t) (h : readsMemory i = false) : MemExcept (cellsStored s i) s t := by
  cases e with
  | result v hd hu reading => exact memExcept_of_mem_eq (congrArg State.mem (reading h) :)
  | store v hd hs hu reading =>
    rw [hs, reading h]
    exact memExcept_memWrite _ v s
  | string hi loop => obtain rfl | rfl := hi <;> cases h
  | getc hi | inEcho hi => exact memExcept_of_mem_eq (by simp)
  | jump target hd hi | link target hd hi hr => exact memExcept_of_mem_eq rfl
  | out hi | halt hi | reserved hi | nothing hi => exact memExcept_of_mem_eq rfl

theorem mem_wf (e : Effect i s t) (h : s.mem.wf) : t.mem.wf := by
  cases e with
  | result v hd hu reading => exact hu.mem_wf h
  | store v hd hs hu reading => exact Memory.wf_write _ v (hu.mem_wf h)
  | string hi loop => exact (stringLoop_wf loop h :)
  | getc hi | inEcho hi => simpa using h
  | jump target hd hi | link target hd hi hr => exact h
  | out hi | halt hi | reserved hi | nothing hi => exact h

/-! ### Input and output -/

theorem inq_suffix (e : Effect i s t) : t.inq <:+ s.inq := by
  cases e with
  | result v hd hu reading => exact hu.inq_suffix
  | store v hd hs hu reading => exact hu.inq_suffix
  | string hi loop => exact (stringLoop_inq loop :)
  | getc hi => exact inq_getcTake_suffix s
  | inEcho hi => exact inq_inTakeEcho_suffix _
  | jump target hd hi | link target hd hi hr => exact List.suffix_rfl
  | out hi | halt hi | reserved hi | nothing hi => exact List.suffix_rfl

theorem inq_eq (e : Effect i s t) (hr : readsMemory i = false) (h : ¬ takesInput i) : t.inq = s.inq := by
  cases e with
  | result v hd hu reading => exact (congrArg State.inq (reading hr) :)
  | store v hd hs hu reading => exact (congrArg State.inq (reading hr) :)
  | string hi loop => obtain rfl | rfl := hi <;> cases hr
  | getc hi => exact absurd (.inl hi) h
  | inEcho hi => exact absurd (.inr hi) h
  | jump target hd hi | link target hd hi => rfl
  | out hi | halt hi | reserved hi | nothing hi => rfl

theorem out_prefix (e : Effect i s t) : s.out <+: t.out := by
  cases e with
  | result v hd hu reading => simp [hu.out_eq]
  | store v hd hs hu reading => simp [hu.out_eq]
  | string hi loop => exact (stringLoop_out loop :)
  | getc hi => simp
  | inEcho hi => exact (List.prefix_append _ _).trans (out_inTakeEcho_prefix (outPutAll s.params.inPrompt s))
  | out hi | halt hi => exact List.prefix_append _ _
  | jump target hd hi | link target hd hi hr => exact List.prefix_rfl
  | reserved hi | nothing hi => exact List.prefix_rfl

theorem output_eq (e : Effect i s t) (h : ¬ sendsOutput i) : t.out = s.out ∧ t.flushed = s.flushed := by
  cases e with
  | result v hd hu reading => exact ⟨hu.out_eq, hu.flushed_eq⟩
  | store v hd hs hu reading => exact ⟨hu.out_eq, hu.flushed_eq⟩
  | getc hi => simp
  | string hi loop => exact absurd (by obtain rfl | rfl := hi <;> simp [sendsOutput]) h
  | inEcho hi | out hi | halt hi => exact absurd (by simp [sendsOutput, hi]) h
  | jump target hd hi | link target hd hi hr => exact ⟨rfl, rfl⟩
  | reserved hi | nothing hi => exact ⟨rfl, rfl⟩

end Effect
end Sys2Proof.Machine

namespace Sys2Proof.Claims

open Sys2Proof.Machine

/-- Settles O11: `Effect.cond_cases`, for the row that gives the instruction its meaning. -/
theorem flagSettersAreTheSeven : Obligations.FlagSettersAreTheSeven := by
  unfold Obligations.FlagSettersAreTheSeven
  intro i s t answer
  obtain ⟨j, hwf, same, dest, -⟩ := exists_wf_exec_eq i
  rw [← dest]
  obtain ⟨d, hd, cond⟩ | ⟨hd, cond⟩ := (effect_of_exec hwf ((same s).symm.trans answer)).cond_cases
  · rw [hd]; exact cond.trans (condOf_eq_conditionOf _)
  · rw [hd]; exact cond

/-- Settles O12: a field at a time. -/
theorem writersTable : Obligations.WritersTable := by
  unfold Obligations.WritersTable
  intro i s t hwf answer
  have effect := effect_of_exec hwf answer
  refine ⟨effect.regs, effect.pc_eq, effect.run_cases, fun a ha => ?cells, effect.mem_of_not_reading, effect.inq_suffix,
    effect.inq_eq, effect.out_prefix, effect.output_eq, effect.hold_eq, effect.params_eq⟩
  simp only [List.mem_cons, not_or] at ha
  obtain ⟨notStatus, notData, notStored⟩ := ha
  exact effect.mem_read notStored notStatus notData

theorem RegsExcept.mono {ds es : List Reg} {s t : State} (h : RegsExcept ds s t) (sub : ds ⊆ es) : RegsExcept es s t :=
  fun r hr => h r fun hd => hr (sub hd)

/-- The rows of TRAP in the tables of who writes what. -/
theorem trap_writes {i : Instr} (h : isTrap i) (s : State) :
    flagDest i = none ∧ writesPc i = false ∧ regsWritten i ⊆ [.r0] ∧ cellsStored s i = [] := by
  obtain rfl | rfl | rfl | rfl | rfl | rfl | ⟨v, rfl⟩ := h <;> simp [flagDest, writesPc, regsWritten, cellsStored]

/-- Settles O38. -/
theorem trapKeepsLinkAndFlags : Obligations.TrapKeepsLinkAndFlags := by
  unfold Obligations.TrapKeepsLinkAndFlags
  intro i s t trap answer
  obtain ⟨j, hwf, same, -, kind⟩ := exists_wf_exec_eq i
  have effect := effect_of_exec hwf ((same s).symm.trans answer)
  obtain ⟨noFlags, noPc, regs, noCells⟩ := trap_writes (kind trap) s
  have others := effect.regs.mono regs
  refine ⟨?cond, effect.pc_eq noPc, others .r7 (by decide), others, fun a ha => ?cells⟩
  case cond =>
    obtain ⟨d, hd, -⟩ | ⟨-, cond⟩ := effect.cond_cases
    · exact absurd (hd.symm.trans noFlags) nofun
    · exact cond
  case cells =>
    simp only [List.mem_cons, List.not_mem_nil, or_false, not_or] at ha
    exact effect.mem_read (noCells ▸ List.not_mem_nil) ha.1 ha.2

/-! ### The illegal words (R89) -/

theorem decode_eq_rti_iff {w : Word} : decode w = .rti ↔ fieldOpcode w = 0x8#4 := by
  constructor <;> intro h
  · exact ((h ▸ agrees_decode w : Agrees w .rti).field 12 4 (by decide)).trans (by decide)
  · simp [decode, h]

theorem decode_eq_res_iff {w : Word} : decode w = .res ↔ fieldOpcode w = 0xD#4 := by
  constructor <;> intro h
  · exact ((h ▸ agrees_decode w : Agrees w .res).field 12 4 (by decide)).trans (by decide)
  · simp [decode, h]

theorem isReserved_decode_iff (w : Word) :
    isReserved (decode w) ↔ (0x8000 ≤ w.toNat ∧ w.toNat ≤ 0x8FFF) ∨ (0xD000 ≤ w.toNat ∧ w.toNat ≤ 0xDFFF) := by
  have opcode (k : BitVec 4) : fieldOpcode w = k ↔ w.toNat / 0x1000 = k.toNat := by
    rw [← toNat_fieldOpcode, BitVec.toNat_inj]
  rw [isReserved, decode_eq_rti_iff, decode_eq_res_iff, opcode, opcode]
  simp only [BitVec.toNat_ofNat]
  omega

/-- Settles O5. -/
theorem illegalWordsFault : Obligations.IllegalWordsFault := by
  unfold Obligations.IllegalWordsFault
  intro w s hrun
  split
  case isTrue range =>
    have reserved := (isReserved_decode_iff w).2 range
    exact ⟨_, exec_reserved reserved s, rfl⟩
  case isFalse range =>
    have legal := mt (isReserved_decode_iff w).1 range
    obtain ⟨t, answer, effect⟩ := exec_effect (wf_decode w) s
    refine ⟨t, answer, ?_⟩
    split
    case isTrue halt =>
      rw [halt] at answer
      cases answer
      rfl
    case isFalse noHalt =>
      obtain run | ⟨halt, -⟩ | ⟨reserved, -⟩ := effect.run_cases
      · exact run.trans hrun
      · exact absurd halt noHalt
      · exact absurd reserved legal

end Sys2Proof.Claims
end

section
/-! PROOFS. The cycle (40_cycle.md, section 1): the fetch, what a step can do, the hold of GETC and IN, and a store that
a later fetch sees (20_memory.md, section 5). -/

namespace Sys2Proof.Machine

open Sys2Proof.Claims

/-! ### The fetch -/

/-- The state the instruction starts from: the read of the cell at `pc`, then `pc` one further (R111). -/
theorem fetch_snd (s : State) : (fetch s).2 = (memRead s.pc s).2.setPc (s.pc + 1) := rfl

@[simp] theorem regs_fetch (s : State) : (fetch s).2.regs = s.regs := regs_memRead s.pc s
@[simp] theorem cond_fetch (s : State) : (fetch s).2.cond = s.cond := cond_memRead s.pc s
@[simp] theorem run_fetch (s : State) : (fetch s).2.run = s.run := run_memRead s.pc s
@[simp] theorem out_fetch (s : State) : (fetch s).2.out = s.out := out_memRead s.pc s
@[simp] theorem flushed_fetch (s : State) : (fetch s).2.flushed = s.flushed := flushed_memRead s.pc s
@[simp] theorem hold_fetch (s : State) : (fetch s).2.hold = s.hold := hold_memRead s.pc s
@[simp] theorem params_fetch (s : State) : (fetch s).2.params = s.params := params_memRead s.pc s

theorem inq_fetch_suffix (s : State) : (fetch s).2.inq <:+ s.inq := inq_memRead_suffix s.pc s

theorem mem_wf_fetch {s : State} (h : s.mem.wf) : (fetch s).2.mem.wf := wf_memRead s.pc h

/-! ### What a step can do -/

theorem step_plain {s : State} (hrun : s.run = .running) (hhold : s.hold = none) (hpc : s.pc ≠ kbsr) :
    step s = exec (decode (s.mem.read s.pc)) (s.setPc (s.pc + 1)) := by
  rw [step_of_running hrun hhold, fetch_plain hpc]

theorem step_of_hold {s : State} {p : HoldPoint} (hrun : s.run = .running) (hhold : s.hold = some p) :
    step s = .next (resume p s) := by
  simp [step, hrun, hhold]

theorem step_at_rest {s t : State} (h : s.run ≠ .running) : step s ≠ .next t := by
  cases hrun : s.run with
  | running => exact absurd hrun h
  | halted | faulted => simp [step, hrun]

theorem step_answers {s : State} (hrun : s.run = .running) : ∃ t, step s = .next t := by
  cases hhold : s.hold with
  | some p => exact ⟨_, step_of_hold hrun hhold⟩
  | none => exact (step_of_running hrun hhold).symm ▸ exec_answers _ _

/-- A step that answers a next state resumes a holding instruction, or fetches and has the effect of the instruction
fetched (R110, R113). -/
theorem step_cases {s t : State} (h : step s = .next t) :
    s.run = .running ∧ ((∃ p, s.hold = some p ∧ t = resume p s) ∨
      (s.hold = none ∧ Effect (decode (fetch s).1) (fetch s).2 t)) := by
  have hrun : s.run = .running := by
    by_contra rest
    exact step_at_rest rest h
  refine ⟨hrun, ?_⟩
  cases hhold : s.hold with
  | some p =>
    rw [step_of_hold hrun hhold] at h
    cases h
    exact .inl ⟨p, rfl, rfl⟩
  | none =>
    rw [step_of_running hrun hhold] at h
    exact .inr ⟨rfl, effect_of_exec (wf_decode _) h⟩

section
variable (p : HoldPoint) (s : State)

@[simp] theorem cond_resume : (resume p s).cond = s.cond := by cases p <;> simp [resume]
@[simp] theorem run_resume : (resume p s).run = s.run := by cases p <;> simp [resume]
@[simp] theorem mem_resume : (resume p s).mem = s.mem := by cases p <;> simp [resume]
@[simp] theorem params_resume : (resume p s).params = s.params := by cases p <;> simp [resume]

theorem inq_resume_suffix : (resume p s).inq <:+ s.inq := by
  cases p
  · exact inq_getcTake_suffix s
  · exact inq_inTakeEcho_suffix s

theorem out_resume_prefix : s.out <+: (resume p s).out := by
  cases p
  · simp [resume]
  · exact out_inTakeEcho_prefix s

end

end Sys2Proof.Machine

namespace Sys2Proof.Claims

open Sys2Proof.Machine

/-- Settles O42. -/
theorem everyInstructionAnswersNext : Obligations.EveryInstructionAnswersNext := by
  unfold Obligations.EveryInstructionAnswersNext
  exact ⟨exec_answers, fun s hrun => step_answers hrun⟩

/-- Settles O6. -/
theorem stepRunsDecodedInstruction : Obligations.StepRunsDecodedInstruction := by
  unfold Obligations.StepRunsDecodedInstruction
  refine ⟨fun s u w hrun hhold read => ?running, fun s h => ?halted, fun s h => ?faulted⟩
  case running =>
    have next : s.pc + 1 = BitVec.ofNat 16 ((s.pc.toNat + 1) % 65536) := BitVec.eq_of_toNat_eq (by simp)
    rw [step_of_running hrun hhold, fetch, read, next]
  case halted => simp [step, h]
  case faulted => simp [step, h]

/-- Settles O7. -/
theorem fetchOfPlainCell : Obligations.FetchOfPlainCell := by
  unfold Obligations.FetchOfPlainCell
  exact fun s hrun hhold hpc => step_plain hrun hhold hpc

/-- The word 0x0000 is a BR with an empty mask. -/
theorem exec_decode_zero (s : State) : exec (decode 0x0000) s = .next s := by
  have row : decode 0x0000 = .br 0 0 := by decide
  rw [row, exec_br, branchTarget, if_neg (by simp [branchTaken])]
  rfl

theorem exec_decode_statusReady (s : State) : exec (decode 0x8000) s = .next (raiseIllegalOpcode s) := by
  have row : decode 0x8000 = .rti := by decide
  rw [row]
  rfl

/-- Settles O8: the poll gives 0x0000 or 0x8000, whose instructions do nothing and fault. -/
theorem fetchAtKeyboardStatus : Obligations.FetchAtKeyboardStatus := by
  unfold Obligations.FetchAtKeyboardStatus
  intro s hrun hhold hpc
  have poll := reads_memRead kbsr s
  have after := AfterReads.one kbsr s
  have fetched : step s = exec (decode (memRead kbsr s).1) ((memRead kbsr s).2.setPc 0xFE01) := by
    rw [step_of_running hrun hhold, fetch, hpc]
    rfl
  generalize memRead kbsr s = r at poll after fetched
  cases hq : s.inq with
  | nil =>
    obtain ⟨word, status, others, inq⟩ := (reads_kbsr_nil hq).1 poll
    rw [word, exec_decode_zero] at fetched
    exact ⟨_, fetched, rfl, after.cond_eq, regsExcept_of_regs_eq after.regs_eq, ⟨after.out_eq, after.flushed_eq⟩,
      after.hold_eq.trans hhold, after.params_eq, after.run_eq.trans hrun, inq, status, others⟩
  | cons c q =>
    obtain ⟨word, status, data, others, inq⟩ := (reads_kbsr_cons hq).1 poll
    rw [word, exec_decode_statusReady] at fetched
    exact ⟨_, fetched, rfl, after.cond_eq, regsExcept_of_regs_eq after.regs_eq, ⟨after.out_eq, after.flushed_eq⟩,
      after.hold_eq.trans hhold, after.params_eq, rfl, inq, status, data, others⟩

/-- Settles O39: the wait of GETC and IN, which `resume` goes on with. -/
theorem holdWaitsForHost : Obligations.HoldWaitsForHost := by
  unfold Obligations.HoldWaitsForHost
  refine ⟨fun s hrun hhold hq => ?waits, fun s c q hrun hhold hq => ?getc, fun s c q hrun hhold hq => ?inEcho⟩
  case waits =>
    obtain ⟨p, hp⟩ := Option.ne_none_iff_exists'.1 hhold
    rw [step_of_hold hrun hp, resume_nil hp hq]
  case getc =>
    refine ⟨_, step_of_hold hrun hhold, ?_⟩
    rw [← hrun]
    exact getcTake_result hq
  case inEcho =>
    refine ⟨_, step_of_hold hrun hhold, ?_⟩
    rw [← hrun]
    exact inTakeEcho_result hq

/-! ### A store that a later fetch sees -/

/-- The three storing instructions end in the store of the register to the cell (R144, R145, R146). -/
theorem exec_store {i : Instr} {r : Reg} {a : Word} {s : State} (source : storeSource i = some r)
    (cell : cellsStored s i = [a]) : ∃ u, AfterReads s u ∧ exec i s = .next (memWrite a (s.getReg r) u) := by
  cases i
  case st => cases source; cases cell; exact ⟨s, .refl, rfl⟩
  case sti => cases source; cases cell; exact ⟨_, .one _ s, rfl⟩
  case str => cases source; cases cell; exact ⟨s, .refl, rfl⟩
  all_goals cases source

/-- Settles O47: the fetch reads the cell the store has written. -/
theorem fetchSeesEarlierStore : Obligations.FetchSeesEarlierStore := by
  unfold Obligations.FetchSeesEarlierStore
  intro i r a s source cell plain hrun hhold
  obtain ⟨u, reads, answer⟩ := exec_store source cell
  have fetched : step ((memWrite a (s.getReg r) u).setPc a) =
      exec (decode (s.getReg r)) ((memWrite a (s.getReg r) u).setPc (a + 1)) := by
    have stored : (memWrite a (s.getReg r) u).mem.read a = s.getReg r := Memory.read_write_self _ _ _
    refine (step_plain (s := (memWrite a (s.getReg r) u).setPc a) (reads.run_eq.trans hrun)
      (reads.hold_eq.trans hhold) plain).trans ?_
    exact congrArg (fun w => exec (decode w) ((memWrite a (s.getReg r) u).setPc (a + 1))) stored
  refine ⟨_, answer, reads.pc_eq, fetched, ?veryNext⟩
  rintro rfl
  have here : (memWrite s.pc (s.getReg r) u).setPc s.pc = memWrite s.pc (s.getReg r) u := by
    rw [← reads.pc_eq]
    rfl
  rwa [here] at fetched

end Sys2Proof.Claims
end

section
/-! PROOFS. What every step keeps (Safety.lean): the invariant, the condition codes, the devices, and the run state of a
machine at rest, along every schedule (60_exceptions.md, section 6). -/

namespace Sys2Proof.Safety

open Sys2Proof.Machine Sys2Proof.Claims

/-! ### Along a schedule -/

/-- What every step and every byte of the host keeps holds at the end of every schedule (decision D29). -/
theorem runSchedule_keeps {P : State → Prop} (onStep : ∀ s t, P s → step s = .next t → P t)
    (onInput : ∀ b s, P s → P (hostAppend b s)) {es : List Event} {s t : State} (hs : P s)
    (run : runSchedule es s = .next t) : P t := by
  induction es generalizing s with
  | nil => cases run; exact hs
  | cons e es ih =>
    cases e with
    | input b => exact ih (onInput b s hs) run
    | core =>
      rw [runSchedule] at run
      split at run
      · exact ih (onStep _ _ hs ‹_›) run
      · cases run
      · cases run

/-! ### The condition codes (10_state.md R24, R25) -/

theorem oneHot_condOf (v : Word) : OneHot (condOf v) := by
  unfold condOf OneHot
  split_ifs <;> simp

theorem oneHot_of_flagDest {i : Instr} {s t : State} (e : Effect i s t) (h : flagDest i ≠ none) : OneHot t.cond := by
  obtain ⟨d, -, cond⟩ | ⟨noDest, -⟩ := e.cond_cases
  · exact cond ▸ oneHot_condOf _
  · exact absurd noDest h

/-- An effect sets one condition, or leaves `cond` as it was. -/
theorem oneHot_or_cond_eq {i : Instr} {s t : State} (e : Effect i s t) : OneHot t.cond ∨ t.cond = s.cond := by
  obtain ⟨d, -, cond⟩ | ⟨-, cond⟩ := e.cond_cases
  · exact .inl (cond ▸ oneHot_condOf _)
  · exact .inr cond

theorem step_oneHot_or_cond_eq {s t : State} (h : step s = .next t) : OneHot t.cond ∨ t.cond = s.cond := by
  obtain ⟨-, ⟨p, -, rfl⟩ | ⟨-, effect⟩⟩ := step_cases h
  · exact .inr (cond_resume p s)
  · exact (oneHot_or_cond_eq effect).imp_right (·.trans (cond_fetch s))

/-! ### The output device (10_state.md R32) -/

theorem outputLegal_of_delivered {s : State} (hhold : s.hold ≠ some .inIn) (h : s.flushed = s.out.length) :
    OutputLegal s := by
  rwa [OutputLegal, if_neg hhold]

theorem delivered_of_outputLegal {s : State} (h : OutputLegal s) (hhold : s.hold ≠ some .inIn) :
    s.flushed = s.out.length := by
  rwa [OutputLegal, if_neg hhold] at h

/-- A wait of IN that ends has delivered everything, and one that goes on has the prompt to deliver. -/
theorem outputLegal_inTakeEcho {s : State} (h : s.flushed + s.params.inPrompt.length = s.out.length) :
    OutputLegal (inTakeEcho s) := by
  obtain ⟨_, e⟩ | ⟨c, q, _, e⟩ := inTakeEcho_cases s <;> rw [e]
  · exact (if_pos rfl).mpr h
  · exact outputLegal_of_delivered nofun rfl

theorem outputLegal_getcTake {s : State} (h : s.flushed = s.out.length) : OutputLegal (getcTake s) := by
  refine outputLegal_of_delivered ?_ (by simpa using h)
  obtain ⟨_, e⟩ | ⟨c, q, _, e⟩ := getcTake_cases s <;> rw [e] <;> nofun

/-- An instruction that starts with everything delivered ends so, but for the prompt of an IN that waits. -/
theorem outputLegal_of_effect {i : Instr} {s t : State} (e : Effect i s t) (hhold : s.hold = none)
    (h : s.flushed = s.out.length) : OutputLegal t := by
  have notIn {u : State} (hu : u.hold = s.hold) : u.hold ≠ some .inIn := by simp [hu, hhold]
  cases e with
  | getc hi => exact outputLegal_getcTake h
  | inEcho hi => exact outputLegal_inTakeEcho (by simp [h])
  | out hi | halt hi => exact outputLegal_of_delivered (notIn rfl) rfl
  | string hi loop => exact outputLegal_of_delivered (notIn (hold_stringLoop loop :)) rfl
  | result v hd hu reading =>
    exact outputLegal_of_delivered (notIn hu.hold_eq) (by simpa [hu.out_eq, hu.flushed_eq] using h)
  | store v hd hs hu reading =>
    exact outputLegal_of_delivered (notIn hu.hold_eq) (by simpa [hu.out_eq, hu.flushed_eq] using h)
  | jump target hd hi | link target hd hi hr => exact outputLegal_of_delivered (notIn rfl) h
  | reserved hi | nothing hi => exact outputLegal_of_delivered (notIn rfl) h

theorem step_outputLegal {s t : State} (legal : OutputLegal s) (h : step s = .next t) : OutputLegal t := by
  obtain ⟨-, ⟨p, hp, rfl⟩ | ⟨hhold, effect⟩⟩ := step_cases h
  · cases p with
    | inGetc => exact outputLegal_getcTake (delivered_of_outputLegal legal (by simp [hp]))
    | inIn => exact outputLegal_inTakeEcho (by rwa [OutputLegal, if_pos hp] at legal)
  · refine outputLegal_of_effect effect (by simpa using hhold) ?_
    simpa using delivered_of_outputLegal legal (by simp [hhold])

theorem step_out_prefix {s t : State} (h : step s = .next t) : s.out <+: t.out := by
  obtain ⟨-, ⟨p, -, rfl⟩ | ⟨-, effect⟩⟩ := step_cases h
  · exact out_resume_prefix p s
  · exact out_fetch s ▸ effect.out_prefix

/-! ### Memory, input and rest -/

theorem step_mem_wf {s t : State} (wf : s.mem.wf) (h : step s = .next t) : t.mem.wf := by
  obtain ⟨-, ⟨p, -, rfl⟩ | ⟨-, effect⟩⟩ := step_cases h
  · rwa [mem_resume]
  · exact effect.mem_wf (mem_wf_fetch wf)

theorem step_inq_suffix {s t : State} (h : step s = .next t) : t.inq <:+ s.inq := by
  obtain ⟨-, ⟨p, -, rfl⟩ | ⟨-, effect⟩⟩ := step_cases h
  · exact inq_resume_suffix p s
  · exact effect.inq_suffix.trans (inq_fetch_suffix s)

/-- Only HALT and the reserved opcodes bring a machine to rest, and they do not wait. -/
theorem step_hold_of_rest {s t : State} (h : step s = .next t) (rest : t.run ≠ .running) : t.hold = none := by
  obtain ⟨hrun, ⟨p, -, rfl⟩ | ⟨hhold, effect⟩⟩ := step_cases h
  · exact absurd ((run_resume p s).trans hrun) rest
  · have noInput : ¬ takesInput (decode (fetch s).1) := by
      obtain run | ⟨halt, -⟩ | ⟨reserved, -⟩ := effect.run_cases
      · exact absurd (run.trans ((run_fetch s).trans hrun)) rest
      · simp [takesInput, halt]
      · obtain rti | res := reserved <;> simp [takesInput, *]
    exact (effect.hold_eq noInput).trans ((hold_fetch s).trans hhold)

theorem inv_step {s t : State} (inv : Inv s) (h : step s = .next t) : Inv t := by
  obtain ⟨wf, cond, output, -⟩ := inv
  refine ⟨step_mem_wf wf h, ?legal, step_outputLegal output h, step_hold_of_rest h⟩
  obtain oneHot | same := step_oneHot_or_cond_eq h
  · exact .inr oneHot
  · exact same ▸ cond

end Sys2Proof.Safety

namespace Sys2Proof.Claims

open Sys2Proof.Machine Sys2Proof.Safety

/-- Settles O51. -/
theorem stepKeepsInvariant : Obligations.StepKeepsInvariant := by
  unfold Obligations.StepKeepsInvariant
  exact fun s t inv h => inv_step inv h

/-- Settles O52. -/
theorem resetMeetsInvariant : Obligations.ResetMeetsInvariant := by
  unfold Obligations.ResetMeetsInvariant
  refine ⟨⟨Memory.wf_nil, .inl rfl, rfl, fun rest => absurd rfl rest⟩, fun p drawn q => ?_⟩
  exact ⟨Memory.wf_ofCells _, .inl rfl, rfl, fun rest => absurd rfl rest⟩

/-- Settles O53: the invariant says nothing about pending input. -/
theorem scheduleKeepsInvariant : Obligations.ScheduleKeepsInvariant := by
  unfold Obligations.ScheduleKeepsInvariant
  exact fun es s t inv run => runSchedule_keeps (fun _ _ inv h => inv_step inv h) (fun _ _ inv => inv) inv run

/-- Settles O54. -/
theorem conditionStaysOneHot : Obligations.ConditionStaysOneHot := by
  unfold Obligations.ConditionStaysOneHot
  refine ⟨fun es s t oneHot run => ?schedule, fun i s t setter answer => ?setter⟩
  case schedule =>
    refine runSchedule_keeps (P := fun s => OneHot s.cond) (fun s t oneHot h => ?_) (fun _ _ oneHot => oneHot) oneHot
      run
    obtain oneHot' | same := step_oneHot_or_cond_eq h
    · exact oneHot'
    · exact same ▸ oneHot
  case setter =>
    obtain ⟨j, hwf, same, dest, -⟩ := exists_wf_exec_eq i
    exact oneHot_of_flagDest (effect_of_exec hwf ((same s).symm.trans answer)) (dest ▸ setter)

/-- Settles O55. -/
theorem outputDeliveredAtBoundaries : Obligations.OutputDeliveredAtBoundaries := by
  unfold Obligations.OutputDeliveredAtBoundaries
  refine fun s t legal h => ⟨step_out_prefix h, fun boundary => ?_⟩
  rw [hostDelivered, delivered_of_outputLegal (step_outputLegal legal h) (by simp [boundary]), List.take_length]

/-- Settles O56. -/
theorem inputTakenFromFront : Obligations.InputTakenFromFront := by
  unfold Obligations.InputTakenFromFront
  exact fun s t h => step_inq_suffix h

/-- Settles O41: only the effect of a reserved opcode faults, and a machine at rest has no step. -/
theorem faultIsPreciseAndFinal : Obligations.FaultIsPreciseAndFinal := by
  unfold Obligations.FaultIsPreciseAndFinal
  refine ⟨fun s t hrun h faulted => ?precise, fun es s t rest run => ?final⟩
  case precise =>
    obtain ⟨-, ⟨p, -, rfl⟩ | ⟨hhold, effect⟩⟩ := step_cases h
    · exact absurd (((run_resume p s).trans hrun).symm.trans faulted) nofun
    · obtain run | ⟨-, run⟩ | ⟨reserved, -⟩ := effect.run_cases
      · exact absurd ((run.trans ((run_fetch s).trans hrun)).symm.trans faulted) nofun
      · exact absurd (run.symm.trans faulted) nofun
      · refine ⟨hhold, reserved, ?_⟩
        rw [step_of_running hrun hhold, exec_reserved reserved] at h
        cases h
        rfl
  case final =>
    refine runSchedule_keeps (P := fun u => u.run = s.run) (fun u v same h => ?_) (fun _ _ same => same) rfl run
    exact absurd h (step_at_rest (same ▸ rest))

end Sys2Proof.Claims
end

section
/-! PROOFS. Reset and the load port (10_state.md R34, 70_reset_and_hazards.md): the values after reset, an image placed
at its origin, and the byte order of an image file. -/

namespace Sys2Proof.Machine

/-! ### Words placed in memory one after another (R213, R214) -/

/-- Loading changes memory alone. -/
theorem loadWords_frame (a : Word) (ws : List Word) (s : State) :
    loadWords a ws s = s.setMem (loadWords a ws s).mem := by
  induction ws generalizing a s with
  | nil => rfl
  | cons w ws ih => rw [loadWords, ih]; rfl

theorem read_loadWords_of_ne {a b : Word} {ws : List Word} {s : State}
    (h : ∀ k, k < ws.length → b ≠ a + BitVec.ofNat 16 k) : (loadWords a ws s).mem.read b = s.mem.read b := by
  induction ws generalizing a s with
  | nil => rfl
  | cons w ws ih =>
    have first : b ≠ a := by simpa using h 0 (Nat.succ_pos _)
    rw [loadWords, ih fun k hk => add_ofNat_succ a k ▸ h (k + 1) (Nat.succ_lt_succ hk)]
    exact Memory.read_write_ne _ w first

theorem read_loadWords {a : Word} {ws : List Word} {s : State} (fits : ws.length ≤ 65536) (k : Nat)
    (hk : k < ws.length) : (loadWords a ws s).mem.read (a + BitVec.ofNat 16 k) = ws[k] := by
  induction ws generalizing a s k with
  | nil => cases hk
  | cons w ws ih =>
    have fits' : ws.length + 1 ≤ 65536 := fits
    cases k with
    | zero =>
      have later (j : Nat) (hj : j < ws.length) : a ≠ a + 1 + BitVec.ofNat 16 j := by
        have : (BitVec.ofNat 16 j).toNat = j := by rw [BitVec.toNat_ofNat]; omega
        bv_omega
      rw [show a + BitVec.ofNat 16 0 = a from BitVec.add_zero a, loadWords, read_loadWords_of_ne later]
      exact Memory.read_write_self _ _ _
    | succ k =>
      rw [add_ofNat_succ, loadWords]
      exact ih (by omega) k (Nat.lt_of_succ_lt_succ hk)

/-! ### The bytes of an image file (R214) -/

/-- The two bytes of a word in a file. -/
def fileBytes (w : Word) : List Byte := [BitVec.ofNat 8 (w.toNat / 256), BitVec.ofNat 8 (w.toNat % 256)]

theorem bigEndianWord_fileBytes (w : Word) :
    bigEndianWord (BitVec.ofNat 8 (w.toNat / 256)) (BitVec.ofNat 8 (w.toNat % 256)) = w := by
  have bound := w.isLt
  apply BitVec.eq_of_toNat_eq
  rw [bigEndianWord, BitVec.toNat_append, BitVec.toNat_ofNat, BitVec.toNat_ofNat,
    ← Nat.shiftLeft_add_eq_or_of_lt (by omega), Nat.shiftLeft_eq]
  omega

theorem parseWords_fileBytes (ws : List Word) : parseWords (ws.flatMap fileBytes) = some ws := by
  induction ws with
  | nil => rfl
  | cons w ws ih =>
    rw [List.flatMap_cons, fileBytes, List.cons_append, List.cons_append, List.nil_append, parseWords, ih,
      Option.map_some, bigEndianWord_fileBytes]

end Sys2Proof.Machine

namespace Sys2Proof.Claims

open Sys2Proof.Machine

theorem reset_eq_powerOn (drawn : Word → Word) : State.reset = powerOn defaultParams drawn [] := by
  have cells : Memory.ofCells (unloadedCell defaultParams.memFill drawn) = [] :=
    (congrArg Memory.ofCells (funext fun a => unloadedCell_word drawn 0x0000 a)).trans Memory.ofCells_unlisted
  rw [powerOn, cells]
  rfl

/-- Settles O48. -/
theorem resetValues : Obligations.ResetValues := by
  unfold Obligations.ResetValues
  refine ⟨?powerOn, reset_eq_powerOn, rfl, fun _ => rfl⟩
  rintro p drawn q _ rfl
  refine ⟨fun r => getReg_powerOn p drawn q r, rfl, rfl, rfl, fun v fill a => ?word, fun fill a => ?any, rfl, rfl, rfl,
    rfl, rfl⟩
  case word => rw [mem_powerOn, Memory.read_ofCells, fill, unloadedCell_word]
  case any => rw [mem_powerOn, Memory.read_ofCells, fill, unloadedCell_any]

/-- Settles O49. -/
theorem imageLoadsAtOrigin : Obligations.ImageLoadsAtOrigin := by
  unfold Obligations.ImageLoadsAtOrigin
  intro i s fits
  refine ⟨_, if_pos fits, fun k hk => read_loadWords (by omega) k hk, fun a h => read_loadWords_of_ne h, ?_⟩
  rw [loadWords_frame]
  exact ⟨regsExcept_of_regs_eq rfl, rfl, rfl, rfl, ⟨rfl, rfl⟩, rfl, rfl, rfl⟩

/-- Settles O50: the words of the file are the origin and then the image's. -/
theorem imageFileIsBigEndian : Obligations.ImageFileIsBigEndian := by
  unfold Obligations.ImageFileIsBigEndian
  intro i
  have words := parseWords_fileBytes (i.origin :: i.words)
  unfold fileBytes at words
  rw [parseImage, words]

end Sys2Proof.Claims
end

section
/-! PROOFS. Runs compared: what has been written to the output has no effect on a step, and neither has the moment at
which a byte arrives (10_state.md, section 6; 60_exceptions.md, section 6; 44_trap.md, section 1). -/

namespace Sys2Proof.Machine

open Sys2Proof.Claims

/-! ### A change of the state that instructions carry along -/

/-- The change leaves alone what an instruction reads besides memory and input, and an instruction's writes leave the
change alone. -/
structure Carried (φ : State → State) : Prop where
  getReg (s : State) (r : Reg) : (φ s).getReg r = s.getReg r
  pc (s : State) : (φ s).pc = s.pc
  cond (s : State) : (φ s).cond = s.cond
  setReg (s : State) (r : Reg) (v : Word) : (φ s).setReg r v = φ (s.setReg r v)
  setPc (s : State) (v : Word) : (φ s).setPc v = φ (s.setPc v)
  setCond (s : State) (c : BitVec 3) : (φ s).setCond c = φ (s.setCond c)
  setRun (s : State) (r : RunState) : (φ s).setRun r = φ (s.setRun r)
  memWrite (s : State) (a v : Word) : memWrite a v (φ s) = φ (memWrite a v s)

/-- The change and a read of the cell commute. -/
def ReadCarried (φ : State → State) (a : Word) (s : State) : Prop :=
  memRead a (φ s) = ((memRead a s).1, φ (memRead a s).2)

theorem Carried.writeResult {φ : State → State} (h : Carried φ) (d : Reg) (v : Word) (s : State) :
    writeResult d v (φ s) = φ (writeResult d v s) := by
  simp only [Machine.writeResult, setcc, h.setReg, h.setCond]

/-- Outside TRAP an instruction carries the change along, if the reads it makes do. -/
theorem exec_carried {φ : State → State} (h : Carried φ) {i : Instr} {s t : State} (noTrap : ¬ isTrap i)
    (answer : exec i s = .next t) (reads : ∀ a u, t.inq <:+ (memRead a u).2.inq → ReadCarried φ a u) :
    exec i (φ s) = .next (φ t) := by
  have address (o : BitVec 9) : pcRel9 (φ s) o = pcRel9 s o := by rw [pcRel9, pcRel9, h.pc]
  have based (b : Reg) (o : BitVec 6) : baseOff6 (φ s) b o = baseOff6 s b o := by rw [baseOff6, baseOff6, h.getReg]
  cases i
  case addReg | addImm | andReg | andImm | not | lea =>
    cases answer
    simp only [exec, execAddReg, execAddImm, execAndReg, execAndImm, execNot, execLea, h.getReg, address, h.writeResult]
  case br m o =>
    have taken : branchTaken m (φ s) = branchTaken m s := by rw [branchTaken, branchTaken, h.cond]
    have target : branchTarget m o (φ s) = branchTarget m o s := by
      rw [branchTarget, branchTarget, taken, address, h.pc]
    rw [exec_br] at answer ⊢
    cases answer
    rw [target, h.setPc]
  case jmp b =>
    cases answer
    simp only [exec, execJmp, h.getReg, h.setPc]
  case jsr | jsrr =>
    cases answer
    simp only [exec, execJsr, execJsrr, pcRel11, h.pc, h.setReg, h.getReg, h.setPc]
  case ld d o =>
    cases answer
    have read : ReadCarried φ _ _ := reads (pcRel9 s o) s List.suffix_rfl
    rw [ReadCarried] at read
    simp only [exec, execLd, finishLoad, address, read, h.writeResult]
  case ldi d o =>
    cases answer
    have second : ReadCarried φ _ _ := reads (memRead (pcRel9 s o) s).1 (memRead (pcRel9 s o) s).2 List.suffix_rfl
    have first : ReadCarried φ _ _ := reads (pcRel9 s o) s (inq_memRead_suffix _ _)
    rw [ReadCarried] at first second
    simp only [exec, execLdi, finishLoad, address, first, second, h.writeResult]
  case ldr d b o =>
    cases answer
    have read : ReadCarried φ _ _ := reads (baseOff6 s b o) s List.suffix_rfl
    rw [ReadCarried] at read
    simp only [exec, execLdr, finishLoad, based, read, h.writeResult]
  case st r o =>
    cases answer
    simp only [exec, execSt, address, h.getReg, h.memWrite]
  case sti r o =>
    cases answer
    have read : ReadCarried φ _ _ := reads (pcRel9 s o) s List.suffix_rfl
    rw [ReadCarried] at read
    simp only [exec, execSti, address, read, h.getReg, h.memWrite]
  case str r b o =>
    cases answer
    simp only [exec, execStr, based, h.getReg, h.memWrite]
  case rti | res =>
    cases answer
    simp only [exec, execRti, execRes, raiseIllegalOpcode, h.setRun]
  all_goals exact absurd (by simp [isTrap]) noTrap

/-- The same of the fetch. -/
theorem fetch_carried {φ : State → State} (h : Carried φ) {s : State} (read : ReadCarried φ s.pc s) :
    fetch (φ s) = ((fetch s).1, φ (fetch s).2) := by
  rw [ReadCarried] at read
  simp only [fetch, h.pc, read, h.setPc]

/-! ### Other output already written -/

/-- The same state with another output. -/
def withOutput (o : List Byte) (n : Nat) (s : State) : State := { s with out := o, flushed := n }

section
variable (o : List Byte) (n : Nat)

theorem carried_withOutput : Carried (withOutput o n) :=
  ⟨fun _ _ => rfl, fun _ => rfl, fun _ => rfl, fun _ _ _ => rfl, fun _ _ => rfl, fun _ _ => rfl, fun _ _ => rfl,
    fun _ _ _ => rfl⟩

theorem readCarried_withOutput (a : Word) (s : State) : ReadCarried (withOutput o n) a s := by
  rw [ReadCarried]
  rcases memRead_cases a s with ⟨ha, h⟩ | ⟨rfl, hq, h⟩ | ⟨rfl, c, q, hq, h⟩ <;> rw [h]
  · rw [memRead_other _ ha]; rfl
  · rw [memRead_kbsr_nil (s := withOutput o n s) hq]; rfl
  · rw [memRead_kbsr_cons (s := withOutput o n s) hq]; rfl

theorem getcTake_withOutput (s : State) : getcTake (withOutput o n s) = withOutput o n (getcTake s) := by
  rcases getcTake_cases s with ⟨hq, h⟩ | ⟨c, q, hq, h⟩ <;> rw [h]
  · rw [getcTake_nil (s := withOutput o n s) hq]; rfl
  · rw [getcTake_cons (s := withOutput o n s) hq]; rfl

end

theorem inTakeEcho_withOutput (o : List Byte) (n : Nat) (s : State) :
    ∃ o' n', inTakeEcho (withOutput o n s) = withOutput o' n' (inTakeEcho s) := by
  rcases inTakeEcho_cases s with ⟨hq, h⟩ | ⟨c, q, hq, h⟩ <;> rw [h]
  · exact ⟨o, n, inTakeEcho_nil (s := withOutput o n s) hq⟩
  · exact ⟨o ++ [c], (o ++ [c]).length, inTakeEcho_cons (s := withOutput o n s) hq⟩

theorem resume_withOutput (p : HoldPoint) (o : List Byte) (n : Nat) (s : State) :
    ∃ o' n', resume p (withOutput o n s) = withOutput o' n' (resume p s) := by
  cases p
  · exact ⟨o, n, getcTake_withOutput o n s⟩
  · exact inTakeEcho_withOutput o n s

theorem stringLoop_withOutput {emit : Word → List Byte} {fuel : Nat} {a : Word} {s t : State} (o : List Byte) (n : Nat)
    (h : stringLoop emit fuel a s = some t) :
    ∃ o', stringLoop emit fuel a (withOutput o n s) = some (withOutput o' n t) := by
  induction fuel generalizing a s o with
  | zero => cases h
  | succ fuel ih =>
    have read : ReadCarried (withOutput o n) a s := readCarried_withOutput o n a s
    rw [ReadCarried] at read
    rw [stringLoop] at h ⊢
    rw [read]
    split at h
    · rename_i zero
      cases h
      exact ⟨o, if_pos zero⟩
    · rename_i nonzero
      obtain ⟨o', loop⟩ := ih (o ++ emit (memRead a s).1) h
      exact ⟨o', (if_neg nonzero).trans loop⟩

theorem stringRoutine_of_loop {emit : Word → List Byte} {s t : State}
    (loop : stringLoop emit (stringFuel s) (s.getReg .r0) s = some t) : stringRoutine emit s = .next (outFlush t) := by
  rw [stringRoutine, loop]

theorem stringRoutine_withOutput {emit : Word → List Byte} {s t : State} (o : List Byte) (n : Nat)
    (h : stringRoutine emit s = .next t) :
    ∃ o' n', stringRoutine emit (withOutput o n s) = .next (withOutput o' n' t) := by
  obtain ⟨u, loop, answer⟩ := stringRoutine_eq emit s
  cases h.symm.trans answer
  obtain ⟨o', loop'⟩ := stringLoop_withOutput o n loop
  exact ⟨o', o'.length, stringRoutine_of_loop (s := withOutput o n s) loop'⟩

theorem exec_withOutput {i : Instr} {s t : State} (hwf : i.wf = true) (answer : exec i s = .next t) (o : List Byte)
    (n : Nat) : ∃ o' n', exec i (withOutput o n s) = .next (withOutput o' n' t) := by
  by_cases trap : isTrap i
  · obtain rfl | rfl | rfl | rfl | rfl | rfl | ⟨v, rfl⟩ := trap
    · cases answer
      exact ⟨o, n, congrArg _ (getcTake_withOutput o n s)⟩
    · cases answer
      exact ⟨_, _, rfl⟩
    · exact stringRoutine_withOutput o n answer
    · cases answer
      obtain ⟨o', n', h⟩ := inTakeEcho_withOutput (o ++ s.params.inPrompt) n (outPutAll s.params.inPrompt s)
      exact ⟨o', n', congrArg _ h⟩
    · exact stringRoutine_withOutput o n answer
    · cases answer
      exact ⟨_, _, rfl⟩
    · have undefined : isRoutineCode v = false := by simpa [Instr.wf] using hwf
      rw [exec_trap_of_not_routineCode undefined] at answer ⊢
      cases answer
      exact ⟨o, n, rfl⟩
  · exact ⟨o, n, exec_carried (carried_withOutput o n) trap answer fun a u _ => readCarried_withOutput o n a u⟩

theorem step_withOutput {s t : State} (h : step s = .next t) (o : List Byte) (n : Nat) :
    ∃ o' n', step (withOutput o n s) = .next (withOutput o' n' t) := by
  have hrun := (step_cases h).1
  cases hhold : s.hold with
  | some p =>
    rw [step_of_hold hrun hhold] at h
    cases h
    rw [step_of_hold (s := withOutput o n s) hrun hhold]
    obtain ⟨o', n', e⟩ := resume_withOutput p o n s
    exact ⟨o', n', congrArg _ e⟩
  | none =>
    rw [step_of_running hrun hhold] at h
    rw [step_of_running (s := withOutput o n s) hrun hhold,
      fetch_carried (carried_withOutput o n) (readCarried_withOutput o n s.pc s)]
    exact exec_withOutput (wf_decode _) h o n

/-! ### A byte that arrives before or after -/

section
variable (b : Byte)

theorem inq_hostAppend_cons {s : State} {c : Byte} {q : List Byte} (hq : s.inq = c :: q) :
    (hostAppend b s).inq = c :: (q ++ [b]) :=
  congrArg (· ++ [b]) hq

theorem carried_hostAppend : Carried (hostAppend b) :=
  ⟨fun _ _ => rfl, fun _ => rfl, fun _ => rfl, fun _ _ _ => rfl, fun _ _ => rfl, fun _ _ => rfl, fun _ _ => rfl,
    fun _ _ _ => rfl⟩

/-- A poll that leaves a byte takes the one that was there before. -/
theorem readCarried_hostAppend {a : Word} {s : State} (unread : (memRead a s).2.inq ≠ []) :
    ReadCarried (hostAppend b) a s := by
  rw [ReadCarried]
  rcases memRead_cases a s with ⟨ha, h⟩ | ⟨rfl, hq, h⟩ | ⟨rfl, c, q, hq, h⟩
  · rw [h, memRead_other _ ha]; rfl
  · rw [h] at unread
    exact absurd hq unread
  · rw [h, memRead_kbsr_cons (inq_hostAppend_cons b hq)]; rfl

theorem getcTake_hostAppend {s : State} (unread : (getcTake s).inq ≠ []) :
    getcTake (hostAppend b s) = hostAppend b (getcTake s) := by
  rcases getcTake_cases s with ⟨hq, h⟩ | ⟨c, q, hq, h⟩
  · rw [h] at unread
    exact absurd hq unread
  · rw [h, getcTake_cons (inq_hostAppend_cons b hq)]; rfl

theorem inTakeEcho_hostAppend {s : State} (unread : (inTakeEcho s).inq ≠ []) :
    inTakeEcho (hostAppend b s) = hostAppend b (inTakeEcho s) := by
  rcases inTakeEcho_cases s with ⟨hq, h⟩ | ⟨c, q, hq, h⟩
  · rw [h] at unread
    exact absurd hq unread
  · rw [h, inTakeEcho_cons (inq_hostAppend_cons b hq)]; rfl

theorem resume_hostAppend {p : HoldPoint} {s : State} (unread : (resume p s).inq ≠ []) :
    resume p (hostAppend b s) = hostAppend b (resume p s) := by
  cases p
  · exact getcTake_hostAppend b unread
  · exact inTakeEcho_hostAppend b unread

theorem ne_nil_of_suffix {p q : List Byte} (h : p <:+ q) (hp : p ≠ []) : q ≠ [] :=
  fun hq => hp (List.suffix_nil.1 (hq ▸ h))

theorem stringLoop_hostAppend {emit : Word → List Byte} {fuel : Nat} {a : Word} {s t : State}
    (h : stringLoop emit fuel a s = some t) (unread : t.inq ≠ []) :
    stringLoop emit fuel a (hostAppend b s) = some (hostAppend b t) := by
  induction fuel generalizing a s with
  | zero => cases h
  | succ fuel ih =>
    have left : t.inq <:+ (memRead a s).2.inq := by
      rw [stringLoop] at h
      split at h
      · cases h; exact List.suffix_rfl
      · exact (stringLoop_inq h :)
    have read : ReadCarried (hostAppend b) a s := readCarried_hostAppend b (ne_nil_of_suffix left unread)
    rw [ReadCarried] at read
    rw [stringLoop] at h ⊢
    rw [read]
    split at h
    · rename_i zero
      cases h
      exact if_pos zero
    · rename_i nonzero
      exact (if_neg nonzero).trans (ih h)

theorem stringRoutine_hostAppend {emit : Word → List Byte} {s t : State} (h : stringRoutine emit s = .next t)
    (unread : t.inq ≠ []) : stringRoutine emit (hostAppend b s) = .next (hostAppend b t) := by
  obtain ⟨u, loop, answer⟩ := stringRoutine_eq emit s
  cases h.symm.trans answer
  have room : stringFuel s ≤ stringFuel (hostAppend b s) := by
    simp [stringFuel, hostAppend]
  exact stringRoutine_of_loop (s := hostAppend b s) (stringLoop_mono (stringLoop_hostAppend b loop unread) room)

theorem exec_hostAppend {i : Instr} {s t : State} (hwf : i.wf = true) (answer : exec i s = .next t)
    (unread : t.inq ≠ []) : exec i (hostAppend b s) = .next (hostAppend b t) := by
  by_cases trap : isTrap i
  · obtain rfl | rfl | rfl | rfl | rfl | rfl | ⟨v, rfl⟩ := trap
    · cases answer
      exact congrArg _ (getcTake_hostAppend b unread)
    · cases answer
      rfl
    · exact stringRoutine_hostAppend b answer unread
    · cases answer
      exact congrArg _ (inTakeEcho_hostAppend b (s := outPutAll s.params.inPrompt s) unread)
    · exact stringRoutine_hostAppend b answer unread
    · cases answer
      rfl
    · have undefined : isRoutineCode v = false := by simpa [Instr.wf] using hwf
      rw [exec_trap_of_not_routineCode undefined] at answer ⊢
      cases answer
      rfl
  · exact exec_carried (carried_hostAppend b) trap answer fun a u left =>
      readCarried_hostAppend b (ne_nil_of_suffix left unread)

theorem step_hostAppend {s t : State} (h : step s = .next t) (unread : t.inq ≠ []) :
    step (hostAppend b s) = .next (hostAppend b t) := by
  have hrun := (step_cases h).1
  cases hhold : s.hold with
  | some p =>
    rw [step_of_hold hrun hhold] at h
    cases h
    exact (step_of_hold (s := hostAppend b s) hrun hhold).trans (congrArg _ (resume_hostAppend b unread))
  | none =>
    rw [step_of_running hrun hhold] at h
    have left : t.inq <:+ (fetch s).2.inq := (effect_of_exec (wf_decode _) h).inq_suffix
    rw [step_of_running (s := hostAppend b s) hrun hhold,
      fetch_carried (carried_hostAppend b) (readCarried_hostAppend b (ne_nil_of_suffix left unread))]
    exact exec_hostAppend b (wf_decode _) h unread

/-! ### A GETC or an IN that waits -/

theorem resume_empty (p : HoldPoint) {s : State} (hq : s.inq = []) : resume p s = s.setHold (some p) := by
  cases p
  · exact getcTake_nil hq
  · exact inTakeEcho_nil hq

/-- The hold leaves no trace in what the byte brings about. -/
theorem resume_late (p : HoldPoint) {s : State} (hq : s.inq = []) :
    resume p (hostAppend b (resume p s)) = resume p (hostAppend b s) := by
  have queue (h : Option HoldPoint) : (hostAppend b (s.setHold h)).inq = [b] := congrArg (· ++ [b]) hq
  rw [resume_empty p hq]
  cases p
  · rw [resume, resume, getcTake_cons (queue _), getcTake_cons (s := hostAppend b s) (queue s.hold)]; rfl
  · rw [resume, resume, inTakeEcho_cons (queue _), inTakeEcho_cons (s := hostAppend b s) (queue s.hold)]; rfl

end

end Sys2Proof.Machine

namespace Sys2Proof.Claims

open Sys2Proof.Machine

/-- At rest a step looks at `run` alone. -/
theorem step_eq_of_rest {s t : State} (rest : s.run ≠ .running) (same : t.run = s.run) : step t = step s := by
  cases hrun : s.run with
  | running => exact absurd hrun rest
  | halted | faulted => simp [step, same, hrun]

/-- Settles O57: a step carries the output along, and where there is none `run` alone says so. -/
theorem outputIsUnobservable : Obligations.OutputIsUnobservable := by
  unfold Obligations.OutputIsUnobservable
  intro s t same
  have hrun : t.run = s.run := by rw [same]
  refine ⟨fun s' h => ?next, fun f h => ?fault, fun r h => ?refused⟩
  case next =>
    obtain ⟨o, n, h'⟩ := step_withOutput h t.out t.flushed
    exact ⟨withOutput o n s', (congrArg step same).trans h', rfl⟩
  all_goals
    have rest : s.run ≠ .running := by
      intro running
      obtain ⟨u, answer⟩ := step_answers running
      exact absurd (h.symm.trans answer) nofun
    exact (step_eq_of_rest rest hrun).trans h

/-- Settles O58: a step that leaves input unread carries the byte along. -/
theorem inputArrivalCommutes : Obligations.InputArrivalCommutes := by
  unfold Obligations.InputArrivalCommutes
  exact fun s t b h unread => step_hostAppend b h unread

theorem runSchedule_core {es : List Event} {s t : State} (h : step s = .next t) :
    runSchedule (.core :: es) s = runSchedule es t := by
  rw [runSchedule, h]

/-- A step that comes to a wait with nothing pending, and the same step with the byte there, lead to the same end. -/
theorem runSchedule_late {p : HoldPoint} {s w : State} {b : Byte} (hrun : w.run = .running) (hq : w.inq = [])
    (waits : step s = .next (resume p w)) (atOnce : step (hostAppend b s) = .next (resume p (hostAppend b w))) :
    runSchedule [.core, .input b, .core] s = runSchedule [.input b, .core] s := by
  have holds : (resume p w).hold = some p := congrArg State.hold (resume_empty p hq)
  have goesOn : step (hostAppend b (resume p w)) = .next (resume p (hostAppend b w)) := by
    rw [← resume_late b p hq]
    exact step_of_hold ((run_resume p w).trans hrun) holds
  calc runSchedule [.core, .input b, .core] s
      = runSchedule [.core] (hostAppend b (resume p w)) := runSchedule_core waits
    _ = runSchedule [] (resume p (hostAppend b w)) := runSchedule_core goesOn
    _ = runSchedule [.core] (hostAppend b s) := (runSchedule_core atOnce).symm

/-- Settles O59: the fetch does not poll, since the status word with nothing pending is no TRAP; so both schedules come
to the same wait. -/
theorem lateInputGivesSameResult : Obligations.LateInputGivesSameResult := by
  unfold Obligations.LateInputGivesSameResult
  intro s b hrun hhold hq takes
  have plain : s.pc ≠ kbsr := by
    intro hpc
    have row : decode 0x0000 = .br 0 0 := by decide
    rw [fetch, hpc, memRead_kbsr_nil hq, row] at takes
    simp [takesInput] at takes
  have carried : ReadCarried (hostAppend b) s.pc s := by
    rw [ReadCarried, memRead_other _ plain, memRead_other _ plain]
    rfl
  have empty : (fetch s).2.inq = [] := by
    rw [fetch_plain plain]
    exact hq
  have running := (run_fetch s).trans hrun
  have waits := step_of_running hrun hhold
  have atOnce := step_of_running (s := hostAppend b s) hrun hhold
  rw [fetch_carried (carried_hostAppend b) carried] at atOnce
  obtain getc | inEcho := takes
  · rw [getc] at waits atOnce
    exact runSchedule_late (p := .inGetc) running empty waits atOnce
  · rw [inEcho] at waits atOnce
    exact runSchedule_late (p := .inIn) (w := outPutAll (fetch s).2.params.inPrompt (fetch s).2) running empty waits
      atOnce

end Sys2Proof.Claims
end
